-- ==== Sys2Proof/Word.lean ====
section
/-! DEFINITION. The word types of the Synacor VM core (spec `00_scope.md` R6). All are unsigned. -/

namespace Sys2Proof

/-- A `Word15`, a value in `[0, 32767]`: a register, a stack entry, the instruction pointer, an
address, an ALU operand (R6). -/
abbrev Word15 := BitVec 15

/-- A `Word16`, a value in `[0, 65535]`: a memory cell, an opcode word, a raw operand word, an input
character (R6, R31). -/
abbrev Word16 := BitVec 16

/-- A byte of the program image (R55). -/
abbrev Byte := BitVec 8

/-- A `Word15` carried where 16 bits are expected; its value does not change (R6: "`zext` is the
identity"). -/
def widen (v : Word15) : Word16 := v.setWidth 16

end Sys2Proof
end

