-- ==== Sys2Proof/Syntax.lean ====
section
/-! DEFINITION. The instructions: one constructor for each of the 22 rows of `spec/opcode_table.json`
(`30_encoding.md` R87).

The fields are the RAW operand words `a`, `b`, `c` (R8, R94). They are not classified here: an operand is
resolved inside its instruction's rule, at the point the rule names, and one the rule does not reach is
never checked (R90, R117). -/

namespace Sys2Proof

/-- The instruction set of R87. Operand roles are those of R85. -/
inductive Instr where
  /-- 0 HLT: stop normally (R190) -/
  | hlt
  /-- 1 SET a, b (R140) -/
  | set (a b : Word16)
  /-- 2 PUSH a (R141) -/
  | push (a : Word16)
  /-- 3 POP a (R142) -/
  | pop (a : Word16)
  /-- 4 EQ a, b, c (R161) -/
  | eq (a b c : Word16)
  /-- 5 GT a, b, c (R162) -/
  | gt (a b c : Word16)
  /-- 6 JMP a (R192) -/
  | jmp (a : Word16)
  /-- 7 JT a, b (R193) -/
  | jt (a b : Word16)
  /-- 8 JF a, b (R194) -/
  | jf (a b : Word16)
  /-- 9 ADD a, b, c (R163) -/
  | add (a b c : Word16)
  /-- 10 MULT a, b, c (R164) -/
  | mult (a b c : Word16)
  /-- 11 MOD a, b, c (R165) -/
  | mod (a b c : Word16)
  /-- 12 AND a, b, c (R166) -/
  | and (a b c : Word16)
  /-- 13 OR a, b, c (R167) -/
  | or (a b c : Word16)
  /-- 14 NOT a, b (R168) -/
  | not (a b : Word16)
  /-- 15 RMEM a, b (R143) -/
  | rmem (a b : Word16)
  /-- 16 WMEM a, b (R144) -/
  | wmem (a b : Word16)
  /-- 17 CALL a (R196) -/
  | call (a : Word16)
  /-- 18 RET (R197) -/
  | ret
  /-- 19 OUT a (R220) -/
  | out (a : Word16)
  /-- 20 IN a (R222); `in` is a word of Lean -/
  | inp (a : Word16)
  /-- 21 NOOP (R191) -/
  | noop
deriving DecidableEq, Repr

end Sys2Proof
end

