-- ==== Sys2Proof/WellFormed.lean ====
section
/-! DEFINITION. Well-formed instructions: no operand word is invalid (`30_encoding.md` R82).

Every instruction of `Instr` has an encoding and can be decoded and run, whether it is well-formed or
not: an invalid operand word is a fault of the step that resolves it, and of no other (R90). So
well-formedness is no premise of decoding or of a step. It is the check under which no step of the
instruction can raise INVALID_OPERAND. -/

namespace Sys2Proof

/-- The raw operand words, in the order `a`, `b`, `c` (R80). -/
def Instr.operands : Instr → List Word16
  | .hlt => []
  | .set a b => [a, b]
  | .push a => [a]
  | .pop a => [a]
  | .eq a b c => [a, b, c]
  | .gt a b c => [a, b, c]
  | .jmp a => [a]
  | .jt a b => [a, b]
  | .jf a b => [a, b]
  | .add a b c => [a, b, c]
  | .mult a b c => [a, b, c]
  | .mod a b c => [a, b, c]
  | .and a b c => [a, b, c]
  | .or a b c => [a, b, c]
  | .not a b => [a, b]
  | .rmem a b => [a, b]
  | .wmem a b => [a, b]
  | .call a => [a]
  | .ret => []
  | .out a => [a]
  | .inp a => [a]
  | .noop => []

/-- An operand word that is a literal or a register, so not invalid (R82). -/
def operandDefined (w : Word16) : Bool := w.toNat < 32776

/-- No operand word of the instruction is invalid (R82, R90). -/
def Instr.wellFormed (i : Instr) : Bool := i.operands.all operandDefined

end Sys2Proof
end

