-- ==== Sys2Proof/Decode.lean ====
section
/-! DEFINITION. The instruction table, the decoder and the encoder (`30_encoding.md` R80 to R94).

The decoder is total: an opcode word in `[0, 21]` selects an instruction, and every other word is
rejected by name (R81, R89). It reads the words of an instruction through a function, so that the step
reads them from memory with wrap-around (R114) and `decode` reads them from a list. -/

namespace Sys2Proof

/-- One row of the Instruction Set Table: opcode, mnemonic, arity in words, and whether the
disassembler shows the operand as a character (R87, R251). -/
structure TableRow where
  opcode : Nat
  mnemonic : String
  arity : Nat
  charOperand : Bool
deriving DecidableEq, Repr

/-- The one table that the step's decoder and the disassembler share (R87, R251). -/
def instructionTable : List TableRow :=
  [⟨0, "HLT", 1, false⟩, ⟨1, "SET", 3, false⟩, ⟨2, "PUSH", 2, false⟩, ⟨3, "POP", 2, false⟩,
   ⟨4, "EQ", 4, false⟩, ⟨5, "GT", 4, false⟩, ⟨6, "JMP", 2, false⟩, ⟨7, "JT", 3, false⟩,
   ⟨8, "JF", 3, false⟩, ⟨9, "ADD", 4, false⟩, ⟨10, "MULT", 4, false⟩] ++
  [⟨11, "MOD", 4, false⟩, ⟨12, "AND", 4, false⟩, ⟨13, "OR", 4, false⟩, ⟨14, "NOT", 3, false⟩,
   ⟨15, "RMEM", 3, false⟩, ⟨16, "WMEM", 3, false⟩, ⟨17, "CALL", 2, false⟩, ⟨18, "RET", 1, false⟩,
   ⟨19, "OUT", 2, true⟩, ⟨20, "IN", 2, false⟩, ⟨21, "NOOP", 1, false⟩]

/-- The table row an opcode word selects; none for a word above 21 (R81, R88, R89). -/
def rowOf (op : Word16) : Option TableRow :=
  instructionTable.find? fun row => row.opcode == op.toNat

/-- The decoder: the instruction whose word `k` is `word k`. Only the words the opcode's arity covers
are used (R80, R87, R88). An opcode word above 21 is not a defined instruction (R89). -/
def decodeWith (word : Nat → Word16) : Option Instr :=
  match (word 0).toNat with
  | 0 => some .hlt
  | 1 => some (.set (word 1) (word 2))
  | 2 => some (.push (word 1))
  | 3 => some (.pop (word 1))
  | 4 => some (.eq (word 1) (word 2) (word 3))
  | 5 => some (.gt (word 1) (word 2) (word 3))
  | 6 => some (.jmp (word 1))
  | 7 => some (.jt (word 1) (word 2))
  | 8 => some (.jf (word 1) (word 2))
  | 9 => some (.add (word 1) (word 2) (word 3))
  | 10 => some (.mult (word 1) (word 2) (word 3))
  | 11 => some (.mod (word 1) (word 2) (word 3))
  | 12 => some (.and (word 1) (word 2) (word 3))
  | 13 => some (.or (word 1) (word 2) (word 3))
  | 14 => some (.not (word 1) (word 2))
  | 15 => some (.rmem (word 1) (word 2))
  | 16 => some (.wmem (word 1) (word 2))
  | 17 => some (.call (word 1))
  | 18 => some .ret
  | 19 => some (.out (word 1))
  | 20 => some (.inp (word 1))
  | 21 => some .noop
  | _ => none

/-- Why a list of words, or of bytes, is no instruction. -/
inductive DecodeError where
  /-- the opcode word is in `[22, 65535]` (R89) -/
  | undefinedOpcode (op : Word16)
  /-- there are fewer words than the opcode's arity; the step never meets this, because its operand
  fetch wraps (R114) (log entry 19) -/
  | truncated
deriving DecidableEq, Repr

/-- The instruction at the head of a list of words, with the words after it. -/
def decode (ws : List Word16) : Except DecodeError (Instr × List Word16) :=
  match ws with
  | [] => .error .truncated
  | op :: _ =>
    match rowOf op, decodeWith fun k => ws.getD k 0 with
    | some row, some i => if ws.length < row.arity then .error .truncated else .ok (i, ws.drop row.arity)
    | _, _ => .error (.undefinedOpcode op)

/-- The word of two image bytes: the first byte is the low byte (R55). -/
def wordOfBytes (lo hi : Byte) : Word16 := hi ++ lo

/-- Bits 7 to 0 of a word: its first byte in the image (R55). -/
def lowByte (w : Word16) : Byte := w.setWidth 8

/-- Bits 15 to 8 of a word: its second byte in the image (R55). -/
def highByte (w : Word16) : Byte := (w >>> 8).setWidth 8

/-- Little-endian pairs of bytes as words; an odd last byte makes no word (R55). -/
def wordsOfBytes : List Byte → List Word16
  | lo :: hi :: rest => wordOfBytes lo hi :: wordsOfBytes rest
  | _ => []

/-- The bytes of words, low byte first (R55). -/
def bytesOfWords : List Word16 → List Byte
  | [] => []
  | w :: rest => lowByte w :: highByte w :: bytesOfWords rest

/-- The number of words of an instruction, its arity (R80). -/
def Instr.length (i : Instr) : Nat := i.operands.length + 1

/-- The instruction at the head of a list of image bytes, with the bytes after it. -/
def decodeBytes (bs : List Byte) : Except DecodeError (Instr × List Byte) :=
  match decode (wordsOfBytes bs) with
  | .ok (i, _) => .ok (i, bs.drop (2 * i.length))
  | .error e => .error e

/-- The opcode number (R87). -/
def Instr.opcode : Instr → Nat
  | .hlt => 0
  | .set _ _ => 1
  | .push _ => 2
  | .pop _ => 3
  | .eq _ _ _ => 4
  | .gt _ _ _ => 5
  | .jmp _ => 6
  | .jt _ _ => 7
  | .jf _ _ => 8
  | .add _ _ _ => 9
  | .mult _ _ _ => 10
  | .mod _ _ _ => 11
  | .and _ _ _ => 12
  | .or _ _ _ => 13
  | .not _ _ => 14
  | .rmem _ _ => 15
  | .wmem _ _ => 16
  | .call _ => 17
  | .ret => 18
  | .out _ => 19
  | .inp _ => 20
  | .noop => 21

/-- The words of an instruction: the opcode, then the raw operands (R80). -/
def encode (i : Instr) : List Word16 := BitVec.ofNat 16 i.opcode :: i.operands

/-- The bytes of an instruction as the image holds it (R55, R80). -/
def encodeBytes (i : Instr) : List Byte := bytesOfWords (encode i)

/-- The decoder's output record (R94). An operand the arity does not cover is absent. -/
structure Decoded where
  addr : Word15
  op : Nat
  arity : Nat
  a : Option Word16
  b : Option Word16
  c : Option Word16
deriving DecidableEq, Repr

/-- The record of R94 for an instruction decoded at an address. -/
def decodedRecord (addr : Word15) (i : Instr) : Decoded :=
  { addr := addr, op := i.opcode, arity := i.length
    a := i.operands[0]?, b := i.operands[1]?, c := i.operands[2]? }

/-- The low `n` bytes of a number, least significant first. -/
def bytesOfNat : Nat → Nat → List Byte
  | 0, _ => []
  | n + 1, w => BitVec.ofNat 8 (w % 256) :: bytesOfNat n (w / 256)

/-- The instruction the decoder reads from the table's bits: bit 0 of `w` is the least significant bit
of the first word and later words count on from it, which is the little-endian byte order of the image
(R55). Every bit at or above `nbits` is 0, up to the longest instruction, four words. -/
def decodeTableWord (nbits w : Nat) : Option Instr :=
  match decodeBytes (bytesOfNat 8 (w % 2 ^ nbits)) with
  | .ok (i, _) => some i
  | .error _ => none

end Sys2Proof
end

