-- ==== Sys2Proof/Config.lean ====
section
/-! DEFINITION. The implementation parameters of the block (spec `00_scope.md` R5).

The sizes the spec fixes are constants. The three parameters the spec leaves OPEN (`WIDE_STORE`,
`STACK_DEPTH`, `SENTINEL_ENABLE`) are fields of `Params`, which the machine's state carries, so that a
claim about every state is a claim about every value of them (log entry 1). The sentinel's constants and
the register operand base stand beside the operations that use them (`Machine/InputOutput.lean`,
`Machine/Operands.lean`).

No opaque constant stands here: the spec leaves no result of an instruction undefined. -/

namespace Sys2Proof

/-- `MEM_WORDS`: the number of memory cells (R5). -/
def memWords : Nat := 32768

/-- `IMAGE_MAX_BYTES`: the largest image the loader takes (R5, R301). -/
def imageMaxBytes : Nat := 65536

/-- `WIDE_STORE` (R5, decision D2): what a register write of a value above 32767 does. -/
inductive WideStore where
  /-- raise `WIDE_VALUE` and leave the register unchanged: the default -/
  | fault
  /-- keep the low 15 bits -/
  | mask15
deriving DecidableEq, Repr

/-- The OPEN parameters of R5. -/
structure Params where
  /-- `WIDE_STORE` (decision D2) -/
  wideStore : WideStore
  /-- `STACK_DEPTH` (decision D7): `none` is unbounded -/
  stackDepth : Option Nat
  /-- `SENTINEL_ENABLE` (decision D14) -/
  sentinelEnable : Bool
deriving DecidableEq, Repr

/-- The defaults of R5: `WIDE_STORE` = fault, an unbounded stack, the sentinel enabled. -/
def Params.default : Params :=
  { wideStore := .fault, stackDepth := none, sentinelEnable := true }

end Sys2Proof
end

