-- ==== Sys2Proof/Machine/State.lean ====
section
/-! DEFINITION. The machine's state, its reset, and the reasons a step could stop (spec `10_state.md`).

Fields from `params` to `faultPc` are the block's (R20 to R31, R5). `input` and `output` are the far
sides of the two character ports, outside the block but seen by IN and OUT (R33, R38, R226). `waiting` is
the step in progress of an IN that waits on the input port (R124, R284; log entry 6). -/

namespace Sys2Proof.Machine

/-- The execution state tag `STATE` (R27). The value 3 is never produced (U10). -/
inductive RunState where
  | running
  | halted
  | error
deriving DecidableEq, Repr

/-- The error cause `CAUSE` (R27, R270), in the order of its codes 0 to 7. -/
inductive Cause where
  | none
  | invalidOperand
  | stackUnderflow
  | undefinedOpcode
  | divideByZero
  | inputEnd
  | stackOverflow
  | wideValue
deriving DecidableEq, Repr

/-- The register file: eight 15-bit registers, none hardwired (R20). -/
structure RegFile where
  r0 : Word15
  r1 : Word15
  r2 : Word15
  r3 : Word15
  r4 : Word15
  r5 : Word15
  r6 : Word15
  r7 : Word15
deriving DecidableEq, Repr

/-- Memory, 32768 cells of 16 bits (R31), held as the bytes of the image's packing (R55): cell `x` is
the byte at key `2x` (its low byte) and the byte at key `2x + 1` (its high byte). The keys are the
model's; a program sees whole cells only (R50, R55; log entry 2). -/
abbrev Memory := List Host.Cell

/-- What a byte that the list does not name reads as: the load's zero fill (R302, R40). -/
def unlistedByte : Byte := 0

/-- The canonical form of memory: keys strictly rising and inside the 65536 bytes of the 32768 cells,
and no entry equal to what an unlisted byte reads as. -/
abbrev Memory.wf (m : Memory) : Prop :=
  m.Pairwise (fun x y => x.1 < y.1) ∧ ∀ c ∈ m, c.2 ≠ unlistedByte ∧ c.1 < 65536

/-- The input provider as the input port sees it (R33, R226): the queue of pending characters, the
interactive lines it is ready to give once the queue is empty, and whether it reports end of input once
both are used up. With `ended` false and nothing left, it has not answered yet. -/
structure InputPort where
  queue : List Word16
  lines : List (List Word16)
  ended : Bool
deriving DecidableEq, Repr

/-- The step in progress of an IN that waits for the input port's answer (R124): the address `p` its
step saved (R112) and its raw destination operand word. -/
structure InWait where
  addr : Word15
  dest : Word16
deriving DecidableEq, Repr

/-- Everything the spec gives the machine. -/
structure State where
  /-- the OPEN parameters of R5, fixed for the machine: no step and no port changes them -/
  params : Params
  /-- `reg[0..7]` (R20) -/
  regs : RegFile
  /-- the instruction pointer `ip` (R24) -/
  ip : Word15
  /-- the stack, its top entry first (R29) -/
  stack : List Word15
  /-- the memory array (R31) -/
  mem : Memory
  /-- `STATUS.STATE` (R27) -/
  runState : RunState
  /-- `STATUS.CAUSE` (R27) -/
  cause : Cause
  /-- `FAULT_WORD` (R28) -/
  faultWord : Word16
  /-- `FAULT_PC` (R28) -/
  faultPc : Word15
  /-- what the input provider gives (R33, R226) -/
  input : InputPort
  /-- the codes the output sink has taken, the first emitted first (R221) -/
  output : List Word15
  /-- the IN whose step has not ended, if there is one (R124) -/
  waiting : Option InWait
deriving DecidableEq, Repr

/-- Reasons a step stops with a fault: there are none. Every error of this machine is a state the spec
describes (`STATE` = Error, R119, R274), so a step that raises one answers a next state. Safe. -/
inductive Fault
deriving DecidableEq, Repr

/-- Reasons a step is refused. -/
inductive Refusal where
  /-- an instruction that has no meaning yet; raised only by a rejected arm of `exec`, and there is
  none. Safe: the model stops where the machine would go on. -/
  | notModelled (mnemonic : String)
deriving DecidableEq, Repr

/-- All eight registers 0 (R40, R304). -/
def RegFile.zero : RegFile :=
  { r0 := 0, r1 := 0, r2 := 0, r3 := 0, r4 := 0, r5 := 0, r6 := 0, r7 := 0 }

/-- An input provider that has given nothing and has not reported end of input (log entry 5). -/
def InputPort.empty : InputPort := { queue := [], lines := [], ended := false }

/-- The control state a load sets (R304, R40), with the given parameters and memory: nothing emitted,
nothing pre-loaded, no step in progress. -/
def State.loaded (ps : Params) (m : Memory) : State :=
  { params := ps, regs := RegFile.zero, ip := 0, stack := [], mem := m
    runState := .running, cause := .none, faultWord := 0, faultPc := 0
    input := InputPort.empty, output := [], waiting := none }

/-- The machine right after reset, which is a load (R300, R40): here the load of an empty image with no
patches and the default parameters, so that every cell is 0 (R301, R302; log entry 4). -/
def State.reset : State := State.loaded Params.default []

end Sys2Proof.Machine
end

