-- ==== Sys2Proof/Machine/Ops.lean ====
section
/-! DEFINITION. The named operations over registers, memory, the stack and the fault registers, and
the form of an instruction's meaning (`00_scope.md` R7, `40_pipeline.md` R114, R119).

An instruction's rule is a sequence of primitives, top to bottom; a `raise` ends it and undoes nothing
(R7, R119). `Exec` is that: a state passed along, and an error that carries the state as the `raise`
found it. -/

namespace Sys2Proof.Machine

/-! ### Registers (R20, R21) -/

/-- `reg[i]` (R7, R21). -/
def RegFile.get (r : RegFile) (i : Fin 8) : Word15 :=
  match i with
  | 0 => r.r0
  | 1 => r.r1
  | 2 => r.r2
  | 3 => r.r3
  | 4 => r.r4
  | 5 => r.r5
  | 6 => r.r6
  | 7 => r.r7

/-- `reg[i] <- v` (R7). -/
def RegFile.set (r : RegFile) (i : Fin 8) (v : Word15) : RegFile :=
  match i with
  | 0 => { r with r0 := v }
  | 1 => { r with r1 := v }
  | 2 => { r with r2 := v }
  | 3 => { r with r3 := v }
  | 4 => { r with r4 := v }
  | 5 => { r with r5 := v }
  | 6 => { r with r6 := v }
  | 7 => { r with r7 := v }

/-- The value of register `i`. -/
def State.reg (s : State) (i : Fin 8) : Word15 := s.regs.get i

/-- The state after `reg[i] <- v`. -/
def State.setReg (s : State) (i : Fin 8) (v : Word15) : State := { s with regs := s.regs.set i v }

/-! ### Memory (R31, R50, R55) -/

/-- The byte at a key. -/
def Memory.byteAt : Memory → Nat → Byte
  | [], _ => unlistedByte
  | (k, v) :: rest, a => if k = a then v else Memory.byteAt rest a

/-- The memory with no entry at a key, so that the byte there reads as an unlisted one. -/
def Memory.dropByte (m : Memory) (a : Nat) : Memory := m.filter fun c => c.1 != a

/-- The memory with an entry put in its place by key. -/
def Memory.putByte : Memory → Nat → Byte → Memory
  | [], a, v => [(a, v)]
  | (k, w) :: rest, a, v =>
    if a < k then (a, v) :: (k, w) :: rest else (k, w) :: Memory.putByte rest a v

/-- The memory with one byte replaced, in canonical form again: the value an unlisted byte reads as is
not listed. -/
def Memory.setByte (m : Memory) (a : Nat) (v : Byte) : Memory :=
  if v = unlistedByte then Memory.dropByte m a else Memory.putByte (Memory.dropByte m a) a v

/-- `mem[x]`: the 16-bit cell at a word address (R50, R53). -/
def Memory.cell (m : Memory) (x : Word15) : Word16 :=
  wordOfBytes (Memory.byteAt m (2 * x.toNat)) (Memory.byteAt m (2 * x.toNat + 1))

/-- `mem[x] <- v` (R54). -/
def Memory.setCell (m : Memory) (x : Word15) (v : Word16) : Memory :=
  Memory.setByte (Memory.setByte m (2 * x.toNat) (lowByte v)) (2 * x.toNat + 1) (highByte v)

/-- The value of memory cell `x`. -/
def State.cell (s : State) (x : Word15) : Word16 := Memory.cell s.mem x

/-- The state after `mem[x] <- v`. -/
def State.setCell (s : State) (x : Word15) (v : Word16) : State :=
  { s with mem := Memory.setCell s.mem x v }

/-- The state with another stack, its top entry first (R29). -/
def State.withStack (s : State) (entries : List Word15) : State := { s with stack := entries }

/-- The state after `ip <- t` (R7, R25). -/
def State.withIp (s : State) (t : Word15) : State := { s with ip := t }

/-- The state with `STATE` = Halted (R190, R197). -/
def State.withHalted (s : State) : State := { s with runState := .halted }

/-- The state after the output sink took a code, after every earlier one (R221). -/
def State.withOutput (s : State) (v : Word15) : State := { s with output := s.output ++ [v] }

/-- The words stored from address `x` on, wrapping past 32767 as a fetch does (R114). -/
def State.setCells (s : State) (x : Word15) : List Word16 → State
  | [] => s
  | w :: rest => (s.setCell x w).setCells (x + 1) rest

/-! ### The form of a meaning (R7, R119) -/

/-- A raised error: its cause, and the word that `FAULT_WORD` records (R7, R270). -/
structure Raise where
  cause : Cause
  word : Word16
deriving DecidableEq, Repr

/-- A part of an instruction's rule: it goes on with a value and a state, or it raises, and the state it
raised in stands (R119: the engine does not roll back). -/
abbrev Exec (α : Type) := EStateM Raise State α

/-- `raise Error(cause, word)` inside a rule (R7). -/
def raise {α : Type} (cause : Cause) (word : Word16) : Exec α :=
  fun s => .error { cause := cause, word := word } s

/-- TAKING AN ERROR, the machine's only exception (R119, R274): `STATE`, `CAUSE`, `FAULT_WORD` and
`FAULT_PC` are set, `FAULT_PC` to the address `p` of the faulting instruction. The instruction pointer and
every effect already applied stay. There is no handler and no return from it (R276). -/
def enterError (p : Word15) (e : Raise) (s : State) : State :=
  { s with runState := .error, cause := e.cause, faultWord := e.word, faultPc := p }

/-- The end of a step whose instruction stands at `p`: the state its rule left, or the Error state. -/
def endStep (p : Word15) (r : EStateM.Result Raise State Unit) : Host.Outcome State Fault Refusal :=
  match r with
  | .ok _ t => .next t
  | .error e t => .next (enterError p e t)

/-- The advance past an instruction of `n` words, modulo 32768, before any effect (R114, decision D4). -/
def State.advance (s : State) (n : Nat) : State := { s with ip := s.ip + BitVec.ofNat 15 n }

/-- One instruction of `n` words at `s.ip`: the advance, then its rule (R114, R116). -/
def runInstr (n : Nat) (rule : Exec Unit) (s : State) : Host.Outcome State Fault Refusal :=
  endStep s.ip (rule (s.advance n))

/-! ### Primitives of the rules (R7) -/

/-- `MemRead(a, 1)` (R53): the cell as stored, or INVALID_OPERAND outside `[0, 32767]`. -/
def memRead (a : Word16) : Exec Word16 := fun s =>
  if a.toNat < memWords then .ok (s.cell (a.setWidth 15)) s
  else .error { cause := .invalidOperand, word := a } s

/-- `MemWrite(a, 1, v)` (R54): one cell is set, or INVALID_OPERAND outside `[0, 32767]`. -/
def memWrite (a : Word16) (v : Word16) : Exec Unit := fun s =>
  if a.toNat < memWords then .ok () (s.setCell (a.setWidth 15) v)
  else .error { cause := .invalidOperand, word := a } s

/-- The stack has no room for one more entry: never when `STACK_DEPTH` is unbounded (R30). -/
def State.stackFull (s : State) : Bool :=
  match s.params.stackDepth with
  | none => false
  | some d => decide (d ≤ s.stack.length)

/-- `push(v)` (R30): `v` on top, or STACK_OVERFLOW and nothing pushed. -/
def push (v : Word15) : Exec Unit := fun s =>
  if s.stackFull then .error { cause := .stackOverflow, word := widen v } s
  else .ok () (s.withStack (v :: s.stack))

/-- `pop()` behind the test every instruction makes first (R30): the top entry taken off, or `none` from
an empty stack. -/
def popTop : Exec (Option Word15) := fun s =>
  match s.stack with
  | [] => .ok none s
  | v :: rest => .ok (some v) (s.withStack rest)

/-- The value of `ip`, already advanced while a rule runs (R24). -/
def currentIp : Exec Word15 := fun s => .ok s.ip s

/-- `ip <- t` (R7, R195). -/
def jump (t : Word15) : Exec Unit := fun s => .ok () (s.withIp t)

/-- `STATE <- Halted` (R190, R197). -/
def halt : Exec Unit := fun s => .ok () s.withHalted

/-- `emit(v)`: one code to the output sink, which never refuses (R221). -/
def emit (v : Word15) : Exec Unit := fun s => .ok () (s.withOutput v)

/-- `reg[i] <- v` as a primitive (R7). -/
def writeReg (i : Fin 8) (v : Word15) : Exec Unit := fun s => .ok () (s.setReg i v)

/-! ### The input port (R226) -/

/-- The newline that ends an interactive line, code 10 (R226, G2: PRESUMED, log entry 15). -/
def newline : Word16 := 10

/-- The input port's answer to one request. -/
inductive InputAnswer where
  /-- the next character, and the provider with that character taken -/
  | char (ch : Word16) (rest : InputPort)
  /-- end of input -/
  | endOfInput
  /-- none yet: the step waits -/
  | noAnswer
deriving DecidableEq, Repr

/-- What the port answers (R226): the queue first; when it is empty, one interactive line is read and
joins it with a newline after its characters; then end of input, if the provider reports it. -/
def InputPort.take (q : InputPort) : InputAnswer :=
  match q.queue, q.lines with
  | ch :: rest, _ => .char ch { q with queue := rest }
  | [], [] :: more => .char newline { q with queue := [], lines := more }
  | [], (ch :: rest) :: more => .char ch { q with queue := rest ++ [newline], lines := more }
  | [], [] => if q.ended then .endOfInput else .noAnswer

end Sys2Proof.Machine
end

