-- ==== Sys2Proof/Machine/Operands.lean ====
section
/-! DEFINITION. Operand words: their classes, source and destination resolution, and the write-back
(`30_encoding.md` R82 to R84, `40_pipeline.md` R117, R118). -/

namespace Sys2Proof.Machine

/-- `REG_OPERAND_BASE` (R5): register `i` is the operand word `32768 + i`. -/
def regOperandBase : Nat := 32768

/-- The class of an operand word (R82). -/
inductive OperandClass where
  /-- a word in `[0, 32767]` -/
  | literal (v : Word15)
  /-- a word in `[32768, 32775]` -/
  | register (i : Fin 8)
  /-- a word in `[32776, 65535]` -/
  | invalid
deriving DecidableEq, Repr

/-- Classification by value (R82). -/
def classify (w : Word16) : OperandClass :=
  if w.toNat < regOperandBase then .literal (w.setWidth 15)
  else if w.toNat < regOperandBase + 8 then .register (Fin.ofNat 8 (w.toNat - regOperandBase))
  else .invalid

/-- `src(v)` (R83): a literal is itself, a register its current value. It reads no memory. -/
def src (w : Word16) : Exec Word15 := fun s =>
  match classify w with
  | .literal v => .ok v s
  | .register i => .ok (s.reg i) s
  | .invalid => .error { cause := .invalidOperand, word := w } s

/-- A resolved destination (R84). -/
inductive Slot where
  | mem (x : Word15)
  | reg (i : Fin 8)
deriving DecidableEq, Repr

/-- `dst(v)` (R84): a literal names a memory cell, a register operand a register. -/
def dst (w : Word16) : Exec Slot := fun s =>
  match classify w with
  | .literal x => .ok (.mem x) s
  | .register i => .ok (.reg i) s
  | .invalid => .error { cause := .invalidOperand, word := w } s

/-- `store(slot, v)` (R118, decision D2): a cell takes all 16 bits; a register takes a value up to 32767,
and a wider one raises WIDE_VALUE or is cut to its low 15 bits, as `WIDE_STORE` says. -/
def store (slot : Slot) (v : Word16) : Exec Unit := fun s =>
  match slot with
  | .mem x => .ok () (s.setCell x v)
  | .reg i =>
    if v.toNat < 32768 then .ok () (s.setReg i (v.setWidth 15))
    else
      match s.params.wideStore with
      | .fault => .error { cause := .wideValue, word := v } s
      | .mask15 => .ok () (s.setReg i (v.setWidth 15))

/-- The last two steps of every storing rule: resolve the destination, then write it (R120). -/
def storeTo (a : Word16) (v : Word16) : Exec Unit := do
  let slot ← dst a
  store slot v

end Sys2Proof.Machine
end

