-- ==== Sys2Proof/Machine/Alu.lean ====
section
/-! DEFINITION. The ALU and its instructions: EQ, GT, ADD, MULT, MOD, AND, OR, NOT (`42_alu.md` R160 to
R169). -/

namespace Sys2Proof.Machine

/-- The ALU's operations (R169). -/
inductive AluOp where
  | eq
  | gt
  | add
  | mult
  | mod
  | and
  | or
  | not
deriving DecidableEq, Repr

/-- The ALU (R160 to R169): a function of the operation and two inputs alone. `none` is the
divide-by-zero indication of MOD, which has no result then. NOT uses its first input only. -/
def alu (op : AluOp) (x y : Word15) : Option Word15 :=
  match op with
  | .eq => some (if x = y then 1 else 0)
  | .gt => some (if x.toNat > y.toNat then 1 else 0)
  | .add => some (BitVec.ofNat 15 ((x.toNat + y.toNat) % 32768))
  | .mult => some (BitVec.ofNat 15 ((x.toNat * y.toNat) % 32768))
  | .mod => if y.toNat = 0 then none else some (BitVec.ofNat 15 (x.toNat % y.toNat))
  | .and => some (x &&& y)
  | .or => some (x ||| y)
  | .not => some (~~~ x)

/-- The ALU's result in a rule; the divide-by-zero indication raises DIVIDE_BY_ZERO with the raw divisor
word `c` (R165, decision D6). -/
def aluResult (op : AluOp) (x y : Word15) (c : Word16) : Exec Word15 := fun s =>
  match alu op x y with
  | some r => .ok r s
  | none => .error { cause := .divideByZero, word := c } s

/-- The rule the three-operand instructions share: sources `b` then `c`, the result with its check, then
the destination `a` and the write (R120, R161 to R167). -/
def aluRule (op : AluOp) (a b c : Word16) : Exec Unit := do
  let x ← src b
  let y ← src c
  let r ← aluResult op x y c
  storeTo a (widen r)

/-- EQ a, b, c (R161). -/
def execEq (a b c : Word16) (s : State) : Host.Outcome State Fault Refusal :=
  runInstr 4 (aluRule .eq a b c) s

/-- GT a, b, c (R162). -/
def execGt (a b c : Word16) (s : State) : Host.Outcome State Fault Refusal :=
  runInstr 4 (aluRule .gt a b c) s

/-- ADD a, b, c (R163). -/
def execAdd (a b c : Word16) (s : State) : Host.Outcome State Fault Refusal :=
  runInstr 4 (aluRule .add a b c) s

/-- MULT a, b, c (R164). -/
def execMult (a b c : Word16) (s : State) : Host.Outcome State Fault Refusal :=
  runInstr 4 (aluRule .mult a b c) s

/-- MOD a, b, c (R165). -/
def execMod (a b c : Word16) (s : State) : Host.Outcome State Fault Refusal :=
  runInstr 4 (aluRule .mod a b c) s

/-- AND a, b, c (R166). -/
def execAnd (a b c : Word16) (s : State) : Host.Outcome State Fault Refusal :=
  runInstr 4 (aluRule .and a b c) s

/-- OR a, b, c (R167). -/
def execOr (a b c : Word16) (s : State) : Host.Outcome State Fault Refusal :=
  runInstr 4 (aluRule .or a b c) s

/-- NOT a, b (R168). -/
def execNot (a b : Word16) (s : State) : Host.Outcome State Fault Refusal :=
  runInstr 3 (do
    let x ← src b
    let r ← aluResult .not x 0 b
    storeTo a (widen r)) s

end Sys2Proof.Machine
end

