-- ==== Sys2Proof/Machine/Control.lean ====
section
/-! DEFINITION. HLT, NOOP, JMP, JT, JF, CALL and RET (`43_control.md` R190 to R197). -/

namespace Sys2Proof.Machine

/-- HLT (R190): `STATE` becomes Halted; `ip` keeps its advanced value. -/
def execHlt (s : State) : Host.Outcome State Fault Refusal :=
  runInstr 1 halt s

/-- NOOP (R191): nothing beyond the advance. -/
def execNoop (s : State) : Host.Outcome State Fault Refusal :=
  runInstr 1 (pure ()) s

/-- JMP a (R192). -/
def execJmp (a : Word16) (s : State) : Host.Outcome State Fault Refusal :=
  runInstr 2 (do
    let t ← src a
    jump t) s

/-- JT a, b (R193): `b` is resolved only when the branch is taken (decision D9). -/
def execJt (a b : Word16) (s : State) : Host.Outcome State Fault Refusal :=
  runInstr 3 (do
    let x ← src a
    if x.toNat = 0 then pure () else do
      let t ← src b
      jump t) s

/-- JF a, b (R194): `b` is resolved only when the branch is taken (decision D9). -/
def execJf (a b : Word16) (s : State) : Host.Outcome State Fault Refusal :=
  runInstr 3 (do
    let x ← src a
    if x.toNat = 0 then do
      let t ← src b
      jump t
    else pure ()) s

/-- CALL a (R196): the advanced `ip` is pushed before the target is resolved (decision D8). -/
def execCall (a : Word16) (s : State) : Host.Outcome State Fault Refusal :=
  runInstr 2 (do
    let back ← currentIp
    push back
    let t ← src a
    jump t) s

/-- RET (R197): an empty stack is a normal stop. -/
def execRet (s : State) : Host.Outcome State Fault Refusal :=
  runInstr 1 (do
    match ← popTop with
    | none => halt
    | some t => jump t) s

end Sys2Proof.Machine
end

