-- ==== Sys2Proof/Machine/DataMovement.lean ====
section
/-! DEFINITION. SET, PUSH, POP, RMEM and WMEM (`41_data_movement.md` R140 to R144). -/

namespace Sys2Proof.Machine

/-- SET a, b (R140): resolve `b`, then the destination `a`, then write. -/
def execSet (a b : Word16) (s : State) : Host.Outcome State Fault Refusal :=
  runInstr 3 (do
    let v ← src b
    storeTo a (widen v)) s

/-- PUSH a (R141). -/
def execPush (a : Word16) (s : State) : Host.Outcome State Fault Refusal :=
  runInstr 2 (do
    let v ← src a
    push v) s

/-- POP a (R142): an empty stack raises STACK_UNDERFLOW before `a` is looked at; otherwise the entry is
gone before `a` is resolved. -/
def execPop (a : Word16) (s : State) : Host.Outcome State Fault Refusal :=
  runInstr 2 (do
    match ← popTop with
    | none => raise .stackUnderflow 0
    | some v => storeTo a (widen v)) s

/-- RMEM a, b (R143): the cell at the address `b`, raw, into the destination `a`. -/
def execRmem (a b : Word16) (s : State) : Host.Outcome State Fault Refusal :=
  runInstr 3 (do
    let x ← src b
    let v ← memRead (widen x)
    storeTo a v) s

/-- WMEM a, b (R144): `a` is a source, the address written. -/
def execWmem (a b : Word16) (s : State) : Host.Outcome State Fault Refusal :=
  runInstr 3 (do
    let x ← src a
    let v ← src b
    memWrite (widen x) (widen v)) s

end Sys2Proof.Machine
end

