-- ==== Sys2Proof/Machine/InputOutput.lean ====
section
/-! DEFINITION. OUT and IN (`44_io.md` R220 to R226), with the sentinel's constants (R5). -/

namespace Sys2Proof.Machine

/-- `SENTINEL_CHAR`, the character `$`, code 36 (R5, G1: PRESUMED, log entry 15). -/
def sentinelChar : Word16 := 36

/-- `SENTINEL_REG` (R5). -/
def sentinelReg : Fin 8 := 7

/-- `SENTINEL_VALUE` (R5, R225). -/
def sentinelValue : Word15 := 25734

/-- OUT a (R220). -/
def execOut (a : Word16) (s : State) : Host.Outcome State Fault Refusal :=
  runInstr 2 (do
    let v ← src a
    emit v) s

/-- The taken character is the enabled sentinel (R222, R223). -/
def State.isSentinel (s : State) (ch : Word16) : Bool :=
  s.params.sentinelEnable && ch == sentinelChar

/-- What IN does with a character it has taken (R222): the sentinel sets register 7 and leaves `a`
unresolved (R223); any other character is stored to the destination. -/
def deliver (a ch : Word16) : Exec Unit := fun s =>
  if s.isSentinel ch then writeReg sentinelReg sentinelValue s
  else storeTo a ch s

/-- The step's request is answered: the port keeps what it has left, and no step waits any more (R226). -/
def State.answered (s : State) (rest : InputPort) : State := { s with input := rest, waiting := none }

/-- The step of the IN at `p` waits with its raw destination word (R124; log entry 6). -/
def State.waitAt (s : State) (p : Word15) (a : Word16) : State :=
  { s with waiting := some { addr := p, dest := a } }

/-- An IN at `p`, its `ip` already advanced, asks the input port (R226). A character is taken and
delivered; end of input raises INPUT_END; with no answer the step does not end, and what it needs to go
on stays in `waiting` (R124, log entry 6). -/
def askInput (p : Word15) (a : Word16) (s : State) : Host.Outcome State Fault Refusal :=
  match s.input.take with
  | .char ch rest => endStep p (deliver a ch (s.answered rest))
  | .endOfInput => .next (enterError p { cause := .inputEnd, word := 0 } (s.answered s.input))
  | .noAnswer => .next (s.waitAt p a)

/-- IN a (R222). -/
def execIn (a : Word16) (s : State) : Host.Outcome State Fault Refusal :=
  askInput s.ip a (s.advance 2)

/-- The step of a waiting IN goes on: it asks the port again, and fetches nothing (R124, R284). -/
def resumeIn (w : InWait) (s : State) : Host.Outcome State Fault Refusal :=
  askInput w.addr w.dest s

end Sys2Proof.Machine
end

