-- ==== Sys2Proof/Machine/Fetch.lean ====
section
/-! DEFINITION. Fetch and decode at the instruction pointer, the undefined opcode, and the trace port
(`40_pipeline.md` R112 to R115). -/

namespace Sys2Proof.Machine

/-- Word `k` of the instruction at `ip`: the cell at `(ip + k) mod 32768` (R80, R114, decision D4). -/
def State.fetchWord (s : State) (k : Nat) : Word16 := s.cell (s.ip + BitVec.ofNat 15 k)

/-- The instruction at `ip`; none when its opcode word is undefined (R112, R113). Reading a cell has no
side effect (R59), so the operand words are read as the decoder asks for them. -/
def State.fetchInstr (s : State) : Option Instr := decodeWith s.fetchWord

/-- UNDEFINED_OPCODE (R113, decision D5): the opcode word is recorded and `ip` is not advanced. -/
def raiseUndefinedOpcode (s : State) : State :=
  enterError s.ip { cause := .undefinedOpcode, word := s.fetchWord 0 } s

/-- What the trace port presents in the step that starts in this state (R36, R115): the decoded record
with the address before the advance; nothing in a terminal status, for an undefined opcode, or while a
step already goes on. -/
def State.trace (s : State) : Option Decoded :=
  match s.runState, s.waiting with
  | .running, none => s.fetchInstr.map (decodedRecord s.ip)
  | .running, some _ => none
  | .halted, _ => none
  | .error, _ => none

/-- The first four words that `nbits` bits of `w` give, bit 0 the least significant bit of the first
word. -/
def tableWords (nbits w : Nat) : List Word16 := wordsOfBytes (bytesOfNat 8 (w % 2 ^ nbits))

/-- The state a step of the program counter's next instruction can start from: Running, with no cause
and no step in progress (R27, R110). -/
def State.readyToStep (s : State) : State :=
  { s with runState := .running, cause := .none, waiting := none }

end Sys2Proof.Machine
end

