-- ==== Sys2Proof/Machine/Step.lean ====
section
/-! DEFINITION. The step (`40_pipeline.md` R110 to R123). -/

namespace Sys2Proof.Machine

/-- One `STEP` (R123): nothing in a terminal status (R111); an IN that still waits goes on (R124);
otherwise fetch, decode and execute the instruction at `ip`, or raise UNDEFINED_OPCODE (R113). -/
def step (s : State) : Host.Outcome State Fault Refusal :=
  match s.runState with
  | .halted => .next s
  | .error => .next s
  | .running =>
    match s.waiting with
    | some w => resumeIn w s
    | none =>
      match s.fetchInstr with
      | some i => exec i s
      | none => .next (raiseUndefinedOpcode s)

/-- The same state with one instruction's words stored at `ip`, ready to run them. It stands for the load
of a program from outside the machine (log entries 4 and 18). -/
def State.withFetchWord (s : State) (nbits w : Nat) : State :=
  (s.setCells s.ip (tableWords nbits w)).readyToStep

end Sys2Proof.Machine
end

