-- ==== Sys2Proof/Machine/Disassembler.lean ====
section
/-! DEFINITION. The static disassembler (`45_disassembler.md` R240 to R252). It takes memory and gives a
listing; it reads nothing else and changes nothing (R70, R240). -/

namespace Sys2Proof.Machine

/-- An operand in a listing (R241). -/
inductive Token where
  | hex (v : Word15)
  | reg (i : Fin 8)
  | char (v : Word16)
  | invalid (v : Word16)
deriving DecidableEq, Repr

/-- One entry of a listing (R241). -/
inductive Entry where
  | instr (addr : Word15) (words : List Word16) (mnemonic : String) (operands : List Token) (error : Bool)
  | data (addr : Word15) (word : Word16)
deriving DecidableEq, Repr

/-- `token(op, v)` (R244): the operand of a character row is always a character. -/
def token (row : TableRow) (v : Word16) : Token :=
  if row.charOperand then .char v
  else if v.toNat < 32768 then .hex (v.setWidth 15)
  else if v.toNat < 32776 then .reg (Fin.ofNat 8 (v.toNat - 32768))
  else .invalid v

/-- The token is a decode error (R242, R245). -/
def Token.isInvalid : Token → Bool
  | .invalid _ => true
  | .hex _ => false
  | .reg _ => false
  | .char _ => false

/-- Cell `p` of memory, `p` in `[0, 32767]`. -/
def Memory.cellAt (m : Memory) (p : Nat) : Word16 := Memory.cell m (BitVec.ofNat 15 p)

/-- `n` cells from `p` on. -/
def cellsFrom (m : Memory) (p : Nat) : Nat → List Word16
  | 0 => []
  | n + 1 => Memory.cellAt m p :: cellsFrom m (p + 1) n

/-- `n` data entries from `p` on (R250). -/
def dataEntries (m : Memory) (p : Nat) : Nat → List Entry
  | 0 => []
  | n + 1 => .data (BitVec.ofNat 15 p) (Memory.cellAt m p) :: dataEntries m (p + 1) n

/-- The entry of a defined opcode at `p` whose words fit (R242, R245). -/
def instrEntry (m : Memory) (p : Nat) (row : TableRow) : Entry :=
  let toks := (cellsFrom m (p + 1) (row.arity - 1)).map (token row)
  .instr (BitVec.ofNat 15 p) (cellsFrom m p row.arity) row.mnemonic toks (toks.any Token.isInvalid)

/-- The pass from address `p` on (R242). `fuel` bounds the number of entries still to give; 32768 is
enough, since every entry covers at least one address. -/
def passFrom (m : Memory) : Nat → Nat → List Entry
  | 0, _ => []
  | fuel + 1, p =>
    if p < memWords then
      match rowOf (Memory.cellAt m p) with
      | none => .data (BitVec.ofNat 15 p) (Memory.cellAt m p) :: passFrom m fuel (p + 1)
      | some row =>
        if p + row.arity ≤ memWords then instrEntry m p row :: passFrom m fuel (p + row.arity)
        else dataEntries m p (memWords - p)
    else []

/-- A disassembly pass: the listing's entries in ascending address order (R240, R242). -/
def disassemble (m : Memory) : List Entry := passFrom m memWords 0

/-- The first address an entry covers. -/
def Entry.addr : Entry → Word15
  | .instr addr _ _ _ _ => addr
  | .data addr _ => addr

/-- The words an entry shows, one for each address it covers (R240, R241). -/
def Entry.shown : Entry → List Word16
  | .instr _ words _ _ _ => words
  | .data _ word => [word]

/-! ### The text of the listing (R246 to R249, decision D16) -/

/-- One uppercase hexadecimal digit. -/
def hexDigit (n : Nat) : Char := if n < 10 then Char.ofNat (48 + n) else Char.ofNat (55 + n)

/-- `hex4(v)`: four uppercase hexadecimal digits with leading zeros (R246). -/
def hex4 (v : Nat) : String :=
  String.ofList
    [hexDigit (v / 4096 % 16), hexDigit (v / 256 % 16), hexDigit (v / 16 % 16), hexDigit (v % 16)]

/-- `rpad(s, n)`: spaces on the right up to `n` characters (R246). -/
def rpad (s : String) (n : Nat) : String :=
  s ++ String.ofList (List.replicate (n - s.length) ' ')

/-- `join(sep, parts)` (R246). -/
def joinWith (sep : String) : List String → String
  | [] => ""
  | [x] => x
  | x :: y :: rest => x ++ sep ++ joinWith sep (y :: rest)

/-- The text of a character operand (R247): a printable ASCII character in quotes, four escapes, and
`\u` with four digits for every other code. -/
def charText (v : Nat) : String :=
  if v = 39 then "'\\''"
  else if v = 92 then "'\\\\'"
  else if v = 10 then "'\\n'"
  else if 32 ≤ v ∧ v ≤ 126 then "'" ++ String.ofList [Char.ofNat v] ++ "'"
  else "'\\u" ++ hex4 v ++ "'"

/-- The text of a token (R247). -/
def Token.text : Token → String
  | .hex v => "0x" ++ hex4 v.toNat
  | .reg i => "R" ++ String.ofList [hexDigit i.val]
  | .char v => charText v.toNat
  | .invalid v => "?0x" ++ hex4 v.toNat

/-- The text of an entry, without its line feed (R246, R248). -/
def Entry.text : Entry → String
  | .instr addr words mnemonic operands error =>
    hex4 addr.toNat ++ ": " ++ rpad (joinWith " " (words.map fun w => hex4 w.toNat)) 19 ++ "  " ++ mnemonic
      ++ (if operands.isEmpty then "" else " " ++ joinWith ", " (operands.map Token.text))
      ++ (if error then "  ; decode error" else "")
  | .data addr word =>
    hex4 addr.toNat ++ ": " ++ rpad (hex4 word.toNat) 19 ++ "  DATA 0x" ++ hex4 word.toNat

/-- The listing of entries: each line ends in one line feed, with no header and no trailer (R249). -/
def listingOf : List Entry → String
  | [] => ""
  | e :: rest => e.text ++ "\n" ++ listingOf rest

/-- The listing of a pass (R249). -/
def listing (m : Memory) : String := listingOf (disassemble m)

end Sys2Proof.Machine
end

