-- ==== Sys2Proof/Machine/Flags.lean ====
section
/-! DEFINITION. The `STATUS` register's word (`10_state.md` R27). The machine has no condition flags, so
no instruction computes one (R26). -/

namespace Sys2Proof.Machine

/-- The code of `STATE` (R27). -/
def RunState.code : RunState → BitVec 2
  | .running => 0
  | .halted => 1
  | .error => 2

/-- The code of `CAUSE` (R270). -/
def Cause.code : Cause → BitVec 3
  | .none => 0
  | .invalidOperand => 1
  | .stackUnderflow => 2
  | .undefinedOpcode => 3
  | .divideByZero => 4
  | .inputEnd => 5
  | .stackOverflow => 6
  | .wideValue => 7

/-- `STATUS`: bits 1 to 0 `STATE`, bits 4 to 2 `CAUSE`, bits 7 to 5 hardwired 0 (R27, decision D11). -/
def State.statusWord (s : State) : BitVec 8 := (0 : BitVec 3) ++ s.cause.code ++ s.runState.code

end Sys2Proof.Machine
end

