-- ==== Sys2Proof/Machine/HostPort.lean ====
section
/-! DEFINITION. The host port and the step port's result (`10_state.md` R34, R35). -/

namespace Sys2Proof.Machine

/-- The operations of the host port (R34, decision D12). There is none that writes `ip`, `STATUS`, the
fault registers or the stack. -/
inductive HostOp where
  | readReg (i : Fin 8)
  | writeReg (i : Fin 8) (v : Word15)
  | readMem (a : Word15)
  | writeMem (a : Word15) (v : Word16)
  | readIp
  | readStatus
deriving DecidableEq, Repr

/-- What an operation of the host port returns (R34). -/
inductive HostReply where
  | done
  | word15 (v : Word15)
  | word16 (v : Word16)
  | status (word : BitVec 8) (faultWord : Word16) (faultPc : Word15)
deriving DecidableEq, Repr

/-- No step is in progress, so the arbiter lets the host port, the loader and the disassembler in (R60,
R110, R124). -/
def State.betweenSteps (s : State) : Bool := s.waiting.isNone

/-- What an operation returns and leaves, in any status (R34). -/
def hostEffect (op : HostOp) (s : State) : HostReply × State :=
  match op with
  | .readReg i => (.word15 (s.reg i), s)
  | .writeReg i v => (.done, s.setReg i v)
  | .readMem a => (.word16 (s.cell a), s)
  | .writeMem a v => (.done, s.setCell a v)
  | .readIp => (.word15 s.ip, s)
  | .readStatus => (.status s.statusWord s.faultWord s.faultPc, s)

/-- One operation of the host port; none while a step is in progress (R34, R60). -/
def hostOp (op : HostOp) (s : State) : Option (HostReply × State) :=
  if s.betweenSteps then some (hostEffect op s) else none

/-- The step result: `STATE`, the `ip` after the step, and the eight registers (R35, R123). -/
structure StepResult where
  runState : RunState
  ip : Word15
  regs : RegFile
deriving DecidableEq, Repr

/-- What the step port answers a `STEP` request (R35, R124). -/
inductive StepReply where
  /-- the step has ended -/
  | ended (result : StepResult)
  /-- the step waits on the input port, so nothing is returned yet -/
  | inProgress
deriving DecidableEq, Repr

/-- The answer read from the state a step leaves: its result, once no step is in progress (R35, R124). -/
def State.stepReply (s : State) : StepReply :=
  if s.betweenSteps then .ended { runState := s.runState, ip := s.ip, regs := s.regs } else .inProgress

end Sys2Proof.Machine
end

