-- ==== Sys2Proof/Machine/Loader.lean ====
section
/-! DEFINITION. The loader: reset from an image and patches, and what the input provider is handed
(`70_reset_and_hazards.md` R300 to R305, `44_io.md` R226). -/

namespace Sys2Proof.Machine

/-- Why a load is rejected (R272, R301, R303). -/
inductive LoadError where
  /-- `ImageTooLarge`: more than 65536 bytes -/
  | imageTooLarge
  /-- `MalformedImage`: an odd number of bytes -/
  | malformedImage
  /-- a patch whose address or value is out of range (R303; the spec gives it no name) -/
  | patchOutOfRange
deriving DecidableEq, Repr

/-- A patch: an address and a value, both unchecked numbers until the load (R303). -/
structure Patch where
  addr : Nat
  value : Nat
deriving DecidableEq, Repr

/-- The patch names a cell and a cell's value (R303). -/
def Patch.inRange (p : Patch) : Bool := decide (p.addr < memWords ∧ p.value < 65536)

/-- The bytes from key `k` on, in the canonical form: a zero byte is not listed. -/
def memoryOfBytes (k : Nat) : List Byte → Memory
  | [] => []
  | b :: rest =>
    if b = unlistedByte then memoryOfBytes (k + 1) rest else (k, b) :: memoryOfBytes (k + 1) rest

/-- The memory fill (R302): image byte `2k` is the low byte of cell `k`, byte `2k + 1` its high byte, and
every cell past the image is 0. -/
def fillMemory (image : List Byte) : Memory := memoryOfBytes 0 image

/-- The patches, in list order, each overwriting one cell (R303). -/
def applyPatches (m : Memory) (patches : List Patch) : Memory :=
  patches.foldl
    (fun m p => Memory.setCell m (BitVec.ofNat 15 p.addr) (BitVec.ofNat 16 p.value)) m

/-- The load (R300 to R304): the complete state, or a rejection that builds none. The size is checked
before the parity (log entry 10). -/
def load (ps : Params) (image : List Byte) (patches : List Patch) : Except LoadError State :=
  if image.length > imageMaxBytes then .error .imageTooLarge
  else if image.length % 2 = 1 then .error .malformedImage
  else if patches.all Patch.inRange then
    .ok (State.loaded ps (applyPatches (fillMemory image) patches))
  else .error .patchOutOfRange

/-- The carriage return, code 13, that a script is stripped of (R226, R305, G2: PRESUMED, log entry 15). -/
def carriageReturn : Word16 := 13

/-- The input pre-load: a script's characters, carriage returns removed, join the queue (R305). -/
def State.preload (s : State) (script : List Word16) : State :=
  { s with input := { s.input with queue := s.input.queue ++ script.filter (· != carriageReturn) } }

/-- The provider has one more interactive line to give (R226). -/
def State.supplyLine (s : State) (line : List Word16) : State :=
  { s with input := { s.input with lines := s.input.lines ++ [line] } }

/-- The provider reports end of input once what it has is used up (R226). -/
def State.endInput (s : State) : State := { s with input := { s.input with ended := true } }

end Sys2Proof.Machine
end

