-- ==== Sys2Proof/Machine/Block.lean ====
section
/-! DEFINITION. The block with all its ports: what can happen to a state from outside, and the arbiter's
rule of who may act when (`10_state.md` R34 to R39, `20_memory.md` R60, `70_reset_and_hazards.md` R306). -/

namespace Sys2Proof.Machine

/-- The step port (R35): a `STEP` request performs one step and returns the result, once the step has ended
(R124); the same request goes on with a step that waits (log entry 6). None would say that the step stopped,
which no step does (log entry 12). -/
def stepPort (s : State) : Option (StepReply × State) :=
  match Sys2Proof.Machine.step s with
  | .next t => some (t.stepReply, t)
  | .fault _ => none
  | .refused _ => none

/-- One thing that happens to the block. -/
inductive Event where
  /-- a `STEP` request, or the step in progress going on (R35, R124) -/
  | step
  /-- an operation of the host port (R34) -/
  | host (op : HostOp)
  /-- a load through the loader port (R37, R300) -/
  | load (image : List Byte) (patches : List Patch)
  /-- a disassembly pass (R39, R240) -/
  | disassemble
  /-- the provider is handed a script (R305) -/
  | preload (script : List Word16)
  /-- the provider has an interactive line (R226) -/
  | line (chars : List Word16)
  /-- the provider has reached its end of input (R226) -/
  | endOfInput
deriving DecidableEq, Repr

/-- The state an event leaves. None when the arbiter does not let the requester in, because a step is in
progress (R60, R124), or when a load is rejected, which leaves no state on which a step could run
(R301; log entry 11). -/
def applyEvent (e : Event) (s : State) : Option State :=
  match e with
  | .step => (stepPort s).map Prod.snd
  | .host op => (hostOp op s).map Prod.snd
  | .load image patches =>
    if s.betweenSteps then
      match Sys2Proof.Machine.load s.params image patches with
      | .ok t => some t
      | .error _ => none
    else none
  | .disassemble => if s.betweenSteps then some s else none
  | .preload script => some (s.preload script)
  | .line chars => some (s.supplyLine chars)
  | .endOfInput => some s.endInput

/-- The listing the disassembler port returns; none while a step is in progress (R39, R60). -/
def disassemblerPort (s : State) : Option (List Entry) :=
  if s.betweenSteps then some (Sys2Proof.Machine.disassemble s.mem) else none

end Sys2Proof.Machine
end

