-- ==== Sys2Proof/Safety.lean ====
section
/-! DEFINITION. What the claims speak of: the invariant, the states a run can reach, and the spec's own
terms for operands, stores and errors, written from the rules and not from the model's operations. -/

namespace Sys2Proof.Machine

/-! ### Invariant, reachability, safe states -/

/-- What holds of every state that steps, host operations and loads reach (R42, R28, R30). The ranges
of R42 for registers, `ip` and stack entries hold by their 15-bit types. -/
structure State.Inv (s : State) : Prop where
  /-- memory is in canonical form -/
  mem_wf : Memory.wf s.mem
  /-- `STATE` = Error exactly when `CAUSE` is not NONE (R42) -/
  error_iff_cause : s.runState = .error ↔ s.cause ≠ .none
  /-- the fault registers are 0 until a step raises Error (R28) -/
  fault_clear : s.runState ≠ .error → s.faultWord = 0 ∧ s.faultPc = 0
  /-- a step in progress is a step of a running machine (R111, R124) -/
  waiting_running : s.waiting ≠ none → s.runState = .running
  /-- a finite `STACK_DEPTH` bounds the stack (R30) -/
  stack_bounded : ∀ d, s.params.stackDepth = some d → s.stack.length ≤ d

/-- The states a block can be in: those of a load that is not rejected, and those any event leaves
(R300, R306). -/
inductive Reachable : State → Prop where
  | load {ps : Params} {image : List Byte} {patches : List Patch} {s : State} :
      load ps image patches = .ok s → Reachable s
  | event {s t : State} (e : Event) : Reachable s → applyEvent e s = some t → Reachable t

/-- A terminal status: Halted or Error (R9, R27). -/
def State.Terminal (s : State) : Prop := s.runState = .halted ∨ s.runState = .error

/-- A state that is no Error state: a program's answer is read only from such a state (U9, R285). -/
def State.Safe (s : State) : Prop := s.runState ≠ .error

/-! ### Operand words, from R82 -/

/-- The operand word `w`, as a source, has the value `x` (R83): a literal is itself, register `i` is the
word `32768 + i`. -/
def Denotes (s : State) (w : Word16) (x : Word15) : Prop :=
  (w.toNat ≤ 32767 ∧ x.toNat = w.toNat) ∨ ∃ i : Fin 8, w.toNat = 32768 + i.val ∧ x = s.reg i

/-- The operand word is in `[32776, 65535]` (R82). -/
def InvalidWord (w : Word16) : Prop := 32776 ≤ w.toNat

/-- The destination operand word, for the instructions that have one: the D of R85. -/
def destWord : Instr → Option Word16
  | .hlt => none
  | .set a _ => some a
  | .push _ => none
  | .pop a => some a
  | .eq a _ _ => some a
  | .gt a _ _ => some a
  | .jmp _ => none
  | .jt _ _ => none
  | .jf _ _ => none
  | .add a _ _ => some a
  | .mult a _ _ => some a
  | .mod a _ _ => some a
  | .and a _ _ => some a
  | .or a _ _ => some a
  | .not a _ => some a
  | .rmem a _ => some a
  | .wmem _ _ => none
  | .call _ => none
  | .ret => none
  | .out _ => none
  | .inp a => some a
  | .noop => none

/-- The instruction is a control transfer, one of the writers of `ip` beyond the advance (R25). -/
def isTransfer : Instr → Bool
  | .hlt => false
  | .set _ _ => false
  | .push _ => false
  | .pop _ => false
  | .eq _ _ _ => false
  | .gt _ _ _ => false
  | .jmp _ => true
  | .jt _ _ => true
  | .jf _ _ => true
  | .add _ _ _ => false
  | .mult _ _ _ => false
  | .mod _ _ _ => false
  | .and _ _ _ => false
  | .or _ _ _ => false
  | .not _ _ => false
  | .rmem _ _ => false
  | .wmem _ _ => false
  | .call _ => true
  | .ret => true
  | .out _ => false
  | .inp _ => false
  | .noop => false

/-- The causes each instruction can raise: the column "raised by" of R270. -/
def mayRaise : Instr → List Cause
  | .hlt => []
  | .set _ _ => [.invalidOperand]
  | .push _ => [.invalidOperand, .stackOverflow]
  | .pop _ => [.invalidOperand, .stackUnderflow]
  | .eq _ _ _ => [.invalidOperand]
  | .gt _ _ _ => [.invalidOperand]
  | .jmp _ => [.invalidOperand]
  | .jt _ _ => [.invalidOperand]
  | .jf _ _ => [.invalidOperand]
  | .add _ _ _ => [.invalidOperand]
  | .mult _ _ _ => [.invalidOperand]
  | .mod _ _ _ => [.invalidOperand, .divideByZero]
  | .and _ _ _ => [.invalidOperand]
  | .or _ _ _ => [.invalidOperand]
  | .not _ _ => [.invalidOperand]
  | .rmem _ _ => [.invalidOperand, .wideValue]
  | .wmem _ _ => [.invalidOperand]
  | .call _ => [.invalidOperand, .stackOverflow]
  | .ret => []
  | .out _ => [.invalidOperand]
  | .inp _ => [.invalidOperand, .inputEnd, .wideValue]
  | .noop => []

/-! ### Next states, from R114, R118 and R119 -/

/-- `ip` advanced past `n` words: `(ip + n) mod 32768` (R114). -/
def ipAfter (s : State) (n : Nat) : Word15 := BitVec.ofNat 15 ((s.ip.toNat + n) % 32768)

/-- The stack has no room: `STACK_DEPTH` is finite and the stack holds that many entries (R30). -/
def StackFull (s : State) : Prop := ∃ d, s.params.stackDepth = some d ∧ d ≤ s.stack.length

/-- What an error leaves of the state `left`, with its `ip`: the four settings of R119, `FAULT_PC` the
address of the instruction. -/
def errorState (faultPc : Word15) (cause : Cause) (word : Word16) (left : State) : State :=
  { left with runState := .error, cause := cause, faultWord := word, faultPc := faultPc }

/-- The instruction raises the error and has had no effect but the advance by `n` (R119, R275). -/
def RaisesOnly (s : State) (i : Instr) (n : Nat) (cause : Cause) (word : Word16) : Prop :=
  exec i s = .next (errorState s.ip cause word { s with ip := ipAfter s n })

/-- `v` stands in the slot the destination word `a` names, and every other register and cell is as
before (R84, R118). -/
structure Stored (s t : State) (a : Word16) (v : Nat) : Prop where
  reg_written : ∀ i : Fin 8, a.toNat = 32768 + i.val → (t.reg i).toNat = v
  cell_written : ∀ x : Word15, a.toNat = x.toNat → (t.cell x).toNat = v
  regs_kept : ∀ i : Fin 8, a.toNat ≠ 32768 + i.val → t.reg i = s.reg i
  cells_kept : ∀ x : Word15, a.toNat ≠ x.toNat → t.cell x = s.cell x

/-- The instruction of `n` words completes: it stores `v` through the destination word `a` and changes
nothing else but the advance. -/
def StoresResult (s : State) (i : Instr) (n : Nat) (a : Word16) (v : Nat) : Prop :=
  ∃ t, exec i s = .next t ∧ t = { s with ip := ipAfter s n, regs := t.regs, mem := t.mem } ∧
    Stored s t a v

/-- The rule the three-operand instructions share (R161 to R164, R166, R167): the encoding
`[opcode, a, b, c]`; INVALID_OPERAND on the first of `b`, `c`, `a` above 32775 with nothing written; else
`f` of the two source values in the destination. -/
def BinaryRule (mk : Word16 → Word16 → Word16 → Instr) (opcode : Word16) (f : Nat → Nat → Nat) : Prop :=
  ∀ (a b c : Word16) (s : State),
    encode (mk a b c) = [opcode, a, b, c] ∧
    (InvalidWord b → RaisesOnly s (mk a b c) 4 .invalidOperand b) ∧
    (∀ x, Denotes s b x → InvalidWord c → RaisesOnly s (mk a b c) 4 .invalidOperand c) ∧
    (∀ x y, Denotes s b x → Denotes s c y → InvalidWord a →
      RaisesOnly s (mk a b c) 4 .invalidOperand a) ∧
    (∀ x y, Denotes s b x → Denotes s c y → ¬ InvalidWord a →
      StoresResult s (mk a b c) 4 a (f x.toNat y.toNat))

/-- The characters an input port has still to give, in order (R226): the queue, then each line with its
newline. -/
def InputPort.pending (q : InputPort) : List Word16 :=
  q.queue ++ q.lines.flatMap fun line => line ++ [10]

/-- The state between steps of a running machine with the words of `i` at `ip`, wrapping (R80, R114). -/
def AtInstruction (s : State) (i : Instr) : Prop :=
  s.runState = .running ∧ s.waiting = none ∧
    ∀ k : Fin 4, k.val < (encode i).length →
      some (s.cell (s.ip + BitVec.ofNat 15 k.val)) = (encode i)[k.val]?

/-- The word of cell `x` in an image: bytes `2x` and `2x + 1`, low byte first, and 0 past its end
(R55, R302). -/
def imageWord (image : List Byte) (x : Nat) : Nat :=
  (image.getD (2 * x) 0).toNat + 256 * (image.getD (2 * x + 1) 0).toNat

/-- The addresses an entry of a listing covers (R240). -/
def Entry.covers (e : Entry) : List Nat :=
  (List.range e.shown.length).map fun k => e.addr.toNat + k

end Sys2Proof.Machine
end

