-- ==== Sys2Proof/Certificates/Slice0/Obligations.lean ====
section
/-! DEFINITION. The statements for the provers. Each docstring names the rules of `spec/` it formalises.

"Decision D<n>" in a docstring names the entry of `92_eei_decisions.md` that the rule says it rests on: it
is the spec's choice, stated in the rule cited. -/

open Sys2Proof Sys2Proof.Machine

/-! ### Encoding and decoding -/

/-- R80, R87: words written out from the opcode map, one for each format and each family. -/
def Obligations.WrittenOutWordsDecode : Prop :=
  decode [0] = .ok (.hlt, []) ∧ decode [1, 32768, 5] = .ok (.set 32768 5, []) ∧
  decode [2, 32769] = .ok (.push 32769, []) ∧ decode [9, 32769, 32768, 48] = .ok (.add 32769 32768 48, []) ∧
  decode [17, 12] = .ok (.call 12, []) ∧ decode [20, 32768] = .ok (.inp 32768, []) ∧
  decode [22] = .error (.undefinedOpcode 22)

/-- R55, R80, R87: the decoder gives back every instruction, with every operand word, from the image
bytes the encoder makes, whatever bytes follow. -/
def Obligations.DecodeBytesOfEncodedInstruction : Prop :=
  ∀ (i : Instr) (rest : List Byte), decodeBytes (encodeBytes i ++ rest) = .ok (i, rest)

/-- R91: each word has one meaning. What the decoder accepts is the encoding of what it answers,
followed by the words it leaves. -/
def Obligations.DecodeAcceptsOnlyEncodings : Prop :=
  ∀ (ws rest : List Word16) (i : Instr), decode ws = .ok (i, rest) → ws = encode i ++ rest

/-- R81, R89: of four words the decoder makes an instruction when the first is in `[0, 21]`; otherwise it
rejects that word by name. -/
def Obligations.OpcodeWordSelectsOrIsUndefined : Prop :=
  ∀ op a b c : Word16,
    (op.toNat ≤ 21 → ∃ i rest, decode [op, a, b, c] = .ok (i, rest) ∧ i.opcode = op.toNat) ∧
    (22 ≤ op.toNat → decode [op, a, b, c] = .error (.undefinedOpcode op))

/-! ### The step -/

/-- R112, R114, R116: with an instruction's words at `ip` (read with wrap-around, decision D4), a step
of a running machine is `exec` of that instruction; `exec` itself makes the advance. -/
def Obligations.StepRunsTheDecodedInstruction : Prop :=
  ∀ (s : State) (i : Instr), AtInstruction s i → step s = exec i s

/-- R113 (decision D5): an opcode word above 21 raises UNDEFINED_OPCODE, `ip` stays, nothing is traced,
and nothing else changes. -/
def Obligations.UndefinedOpcodeRaises : Prop :=
  ∀ s : State, s.runState = .running → s.waiting = none → 22 ≤ (s.cell s.ip).toNat →
    step s = .next (errorState s.ip .undefinedOpcode (s.cell s.ip) s) ∧ s.trace = none

/-- R111 (decision D10): any number of steps requested while `STATE` is Halted or Error changes nothing,
and the step result reports the unchanged values. -/
def Obligations.TerminalStepsChangeNothing : Prop :=
  ∀ (s : State) (k : Nat), s.Terminal → Sys2Proof.core.run k s = .next s

/-- R124, R284 (decision D13): a waiting IN stays as it is while the port does not answer, and no host
operation, load or disassembly pass is let in (log entry 13); a character or end of input ends the wait.
The form of the wait is the model's (log entry 6). -/
def Obligations.WaitingStepIsUninterrupted : Prop :=
  ∀ (s : State) (w : InWait), s.runState = .running → s.waiting = some w →
    (s.input.take = .noAnswer → step s = .next s) ∧
    (s.input.take ≠ .noAnswer → ∃ t, step s = .next t ∧ t.waiting = none) ∧
    (∀ op, hostOp op s = none) ∧ (∀ image patches, applyEvent (.load image patches) s = none) ∧
    disassemblerPort s = none

/-- No step of any state stops: every condition of the instruction set has an effect the spec gives
(R89, R90, R119, R124). The step port returns `STATE`, the `ip` after the step and all eight registers when
the step has ended, and nothing while an IN still waits (R35, R123, R124). That an error and a wait are next
states is the model's reading (log entries 6 and 12). -/
def Obligations.EveryStepAnswersANextState : Prop :=
  ∀ s : State, ∃ t, step s = .next t ∧
    (t.waiting = none → ∃ r, stepPort s = some (.ended r, t) ∧ r.runState = t.runState ∧ r.ip = t.ip ∧
      ∀ i, r.regs.get i = t.reg i) ∧
    (t.waiting ≠ none → stepPort s = some (.inProgress, t))

/-- R36, R115 (decision D24): the trace presents the address before the advance, the opcode and the raw
operand words the arity covers. The trace as a function of the state is the model's form (log entry 8). -/
def Obligations.TracePresentsDecodedInstruction : Prop :=
  ∀ (s : State) (i : Instr), AtInstruction s i →
    ∃ d, s.trace = some d ∧ d.addr = s.ip ∧ d.op = i.opcode ∧ d.arity = (encode i).length ∧
      d.a = (encode i)[1]? ∧ d.b = (encode i)[2]? ∧ d.c = (encode i)[3]?

/-- R66, R311, R312 (decision D20): words written to memory at `ip`, wrapping, are what the next step
runs. -/
def Obligations.WrittenInstructionIsFetched : Prop :=
  ∀ (s : State) (i : Instr), s.runState = .running → s.waiting = none →
    step (s.setCells s.ip (encode i)) = exec i (s.setCells s.ip (encode i))

/-! ### Operands and the write-back -/

/-- R83, R84: a literal is its value as a source and names a memory cell as a destination; a register word
is its register's current value, and names the register; any other word raises INVALID_OPERAND in both
places. Resolution changes no state, and a source's value does not depend on memory. -/
def Obligations.OperandResolution : Prop :=
  ∀ (w : Word16) (s : State),
    (w.toNat ≤ 32767 → ∃ x : Word15, x.toNat = w.toNat ∧ src w s = .ok x s ∧ dst w s = .ok (.mem x) s) ∧
    (∀ i : Fin 8, w.toNat = 32768 + i.val →
      src w s = .ok (s.reg i) s ∧ dst w s = .ok (.reg i) s) ∧
    (32776 ≤ w.toNat →
      src w s = .error { cause := .invalidOperand, word := w } s ∧
      dst w s = .error { cause := .invalidOperand, word := w } s)

/-- R118 (decision D2): a cell takes any 16-bit value; a register takes a value up to 32767, and a wider
one raises WIDE_VALUE with the register unchanged, or is cut to 15 bits. -/
def Obligations.StoreWritesOneSlot : Prop :=
  ∀ (v : Word16) (s : State),
    (∀ x : Word15, ∃ t, store (.mem x) v s = .ok () t ∧ t = { s with mem := t.mem } ∧ t.cell x = v ∧
      ∀ y, y ≠ x → t.cell y = s.cell y) ∧
    (∀ i : Fin 8, v.toNat ≤ 32767 ∨ s.params.wideStore = .mask15 →
      ∃ t, store (.reg i) v s = .ok () t ∧ t = { s with regs := t.regs } ∧
        (t.reg i).toNat = v.toNat % 32768 ∧ ∀ j, j ≠ i → t.reg j = s.reg j) ∧
    (∀ i : Fin 8, 32767 < v.toNat → s.params.wideStore = .fault →
      store (.reg i) v s = .error { cause := .wideValue, word := v } s)

/-- R53, R54: a read returns the cell as stored, a write sets exactly one cell, and both raise
INVALID_OPERAND outside `[0, 32767]`. -/
def Obligations.MemoryPrimitives : Prop :=
  ∀ (a v : Word16) (s : State),
    (∀ x : Word15, a.toNat = x.toNat → memRead a s = .ok (s.cell x) s ∧
      ∃ t, memWrite a v s = .ok () t ∧ t = { s with mem := t.mem } ∧ t.cell x = v ∧
        ∀ y, y ≠ x → t.cell y = s.cell y) ∧
    (32768 ≤ a.toNat → memRead a s = .error { cause := .invalidOperand, word := a } s ∧
      memWrite a v s = .error { cause := .invalidOperand, word := a } s)

/-! ### Data movement and stack instructions -/

/-- R140 (decision D8). -/
def Obligations.SetFollowsItsRule : Prop :=
  ∀ (a b : Word16) (s : State),
    encode (.set a b) = [1, a, b] ∧
    (InvalidWord b → RaisesOnly s (.set a b) 3 .invalidOperand b) ∧
    (∀ v, Denotes s b v → InvalidWord a → RaisesOnly s (.set a b) 3 .invalidOperand a) ∧
    (∀ v, Denotes s b v → ¬ InvalidWord a → StoresResult s (.set a b) 3 a v.toNat)

/-- R141 (decision D7): INVALID_OPERAND before STACK_OVERFLOW; otherwise the value is on top and nothing
else changes. -/
def Obligations.PushFollowsItsRule : Prop :=
  ∀ (a : Word16) (s : State),
    encode (.push a) = [2, a] ∧
    (InvalidWord a → RaisesOnly s (.push a) 2 .invalidOperand a) ∧
    (∀ v, Denotes s a v → StackFull s → RaisesOnly s (.push a) 2 .stackOverflow (widen v)) ∧
    (∀ v, Denotes s a v → ¬ StackFull s →
      exec (.push a) s = .next { s with ip := ipAfter s 2, stack := v :: s.stack })

/-- R142 (decision D8): an empty stack raises STACK_UNDERFLOW, whatever `a` is; otherwise the top entry
is gone, and is stored or, with an invalid `a`, lost. -/
def Obligations.PopFollowsItsRule : Prop :=
  ∀ (a : Word16) (s : State),
    encode (.pop a) = [3, a] ∧
    (s.stack = [] → RaisesOnly s (.pop a) 2 .stackUnderflow 0) ∧
    (∀ v rest, s.stack = v :: rest → InvalidWord a →
      exec (.pop a) s = .next (errorState s.ip .invalidOperand a
        { s with ip := ipAfter s 2, stack := rest })) ∧
    (∀ v rest, s.stack = v :: rest → ¬ InvalidWord a →
      ∃ t, exec (.pop a) s = .next t ∧
        t = { s with ip := ipAfter s 2, stack := rest, regs := t.regs, mem := t.mem } ∧
        Stored s t a v.toNat)

/-- R143 (decisions D2, D8): the cell's 16 bits go to a memory destination as they are; into a register,
a value above 32767 raises WIDE_VALUE or keeps its low 15 bits. -/
def Obligations.RmemFollowsItsRule : Prop :=
  ∀ (a b : Word16) (s : State),
    encode (.rmem a b) = [15, a, b] ∧
    (InvalidWord b → RaisesOnly s (.rmem a b) 3 .invalidOperand b) ∧
    (∀ x, Denotes s b x → InvalidWord a → RaisesOnly s (.rmem a b) 3 .invalidOperand a) ∧
    (∀ x, Denotes s b x → ¬ InvalidWord a → a.toNat ≤ 32767 ∨ (s.cell x).toNat ≤ 32767 →
      StoresResult s (.rmem a b) 3 a (s.cell x).toNat) ∧
    (∀ x, Denotes s b x → ¬ InvalidWord a → 32768 ≤ a.toNat → 32767 < (s.cell x).toNat →
      (s.params.wideStore = .fault → RaisesOnly s (.rmem a b) 3 .wideValue (s.cell x)) ∧
      (s.params.wideStore = .mask15 →
        StoresResult s (.rmem a b) 3 a ((s.cell x).toNat % 32768)))

/-- R144 (decision D8): the cell at the value of `a` takes the value of `b`, and every other cell, every
register and the rest of the state stay. -/
def Obligations.WmemFollowsItsRule : Prop :=
  ∀ (a b : Word16) (s : State),
    encode (.wmem a b) = [16, a, b] ∧
    (InvalidWord a → RaisesOnly s (.wmem a b) 3 .invalidOperand a) ∧
    (∀ x, Denotes s a x → InvalidWord b → RaisesOnly s (.wmem a b) 3 .invalidOperand b) ∧
    (∀ x v, Denotes s a x → Denotes s b v →
      ∃ t, exec (.wmem a b) s = .next t ∧ t = { s with ip := ipAfter s 3, mem := t.mem } ∧
        (t.cell x).toNat = v.toNat ∧ ∀ y, y ≠ x → t.cell y = s.cell y)

/-! ### ALU instructions -/

/-- R161, R162 (decision D8): EQ and GT, an unsigned comparison, give 1 or 0. -/
def Obligations.CompareInstructionsFollowTheirRules : Prop :=
  BinaryRule .eq 4 (fun x y => if x = y then 1 else 0) ∧
  BinaryRule .gt 5 (fun x y => if x > y then 1 else 0)

/-- R163, R164, R166, R167 (decision D8): ADD and MULT are exact, then reduced modulo 32768; AND and OR
are bitwise. -/
def Obligations.ArithmeticAndLogicFollowTheirRules : Prop :=
  BinaryRule .add 9 (fun x y => (x + y) % 32768) ∧ BinaryRule .mult 10 (fun x y => (x * y) % 32768) ∧
  BinaryRule .and 12 (fun x y => x &&& y) ∧ BinaryRule .or 13 (fun x y => x ||| y)

/-- R165 (decisions D6, D8): the zero divisor is checked after both sources and before the destination,
and `FAULT_WORD` is the raw word `c`. -/
def Obligations.ModFollowsItsRule : Prop :=
  ∀ (a b c : Word16) (s : State),
    encode (.mod a b c) = [11, a, b, c] ∧
    (InvalidWord b → RaisesOnly s (.mod a b c) 4 .invalidOperand b) ∧
    (∀ x, Denotes s b x → InvalidWord c → RaisesOnly s (.mod a b c) 4 .invalidOperand c) ∧
    (∀ x y, Denotes s b x → Denotes s c y → y.toNat = 0 → RaisesOnly s (.mod a b c) 4 .divideByZero c) ∧
    (∀ x y, Denotes s b x → Denotes s c y → y.toNat ≠ 0 → InvalidWord a →
      RaisesOnly s (.mod a b c) 4 .invalidOperand a) ∧
    (∀ x y, Denotes s b x → Denotes s c y → y.toNat ≠ 0 → ¬ InvalidWord a →
      StoresResult s (.mod a b c) 4 a (x.toNat % y.toNat))

/-- R168 (decision D8): the 15-bit complement, `32767 - x`. -/
def Obligations.NotFollowsItsRule : Prop :=
  ∀ (a b : Word16) (s : State),
    encode (.not a b) = [14, a, b] ∧
    (InvalidWord b → RaisesOnly s (.not a b) 3 .invalidOperand b) ∧
    (∀ x, Denotes s b x → InvalidWord a → RaisesOnly s (.not a b) 3 .invalidOperand a) ∧
    (∀ x, Denotes s b x → ¬ InvalidWord a → StoresResult s (.not a b) 3 a (32767 - x.toNat))

/-! ### Control instructions -/

/-- R190, R191 (decision D10): HLT sets `STATE` to Halted with `ip` advanced; NOOP only advances. -/
def Obligations.HltAndNoopFollowTheirRules : Prop :=
  ∀ s : State,
    encode .hlt = [0] ∧ exec .hlt s = .next { s with ip := ipAfter s 1, runState := .halted } ∧
    encode .noop = [21] ∧ exec .noop s = .next { s with ip := ipAfter s 1 }

/-- R192, R193, R194 (decision D9): JMP jumps to the address its operand denotes; JT and JF do so when
their condition is not 0, or is 0, and resolve the target only then. -/
def Obligations.JumpsFollowTheirRules : Prop :=
  ∀ (a b : Word16) (s : State),
    (encode (.jmp a) = [6, a] ∧ encode (.jt a b) = [7, a, b] ∧ encode (.jf a b) = [8, a, b]) ∧
    (InvalidWord a → RaisesOnly s (.jmp a) 2 .invalidOperand a ∧
      RaisesOnly s (.jt a b) 3 .invalidOperand a ∧ RaisesOnly s (.jf a b) 3 .invalidOperand a) ∧
    (∀ t, Denotes s a t → exec (.jmp a) s = .next { s with ip := t }) ∧
    (∀ x, Denotes s a x → x.toNat ≠ 0 →
      (InvalidWord b → RaisesOnly s (.jt a b) 3 .invalidOperand b) ∧
      (∀ t, Denotes s b t → exec (.jt a b) s = .next { s with ip := t }) ∧
      exec (.jf a b) s = .next { s with ip := ipAfter s 3 }) ∧
    (∀ x, Denotes s a x → x.toNat = 0 →
      (InvalidWord b → RaisesOnly s (.jf a b) 3 .invalidOperand b) ∧
      (∀ t, Denotes s b t → exec (.jf a b) s = .next { s with ip := t }) ∧
      exec (.jt a b) s = .next { s with ip := ipAfter s 3 })

/-- R196 (decisions D7, D8): CALL pushes the advanced `ip`, the return address, before it resolves its
target; with an invalid target the return address stays on the stack. -/
def Obligations.CallFollowsItsRule : Prop :=
  ∀ (a : Word16) (s : State),
    encode (.call a) = [17, a] ∧
    (StackFull s → RaisesOnly s (.call a) 2 .stackOverflow (widen (ipAfter s 2))) ∧
    (¬ StackFull s → InvalidWord a →
      exec (.call a) s = .next (errorState s.ip .invalidOperand a
        { s with ip := ipAfter s 2, stack := ipAfter s 2 :: s.stack })) ∧
    (∀ t, ¬ StackFull s → Denotes s a t →
      exec (.call a) s = .next { s with ip := t, stack := ipAfter s 2 :: s.stack })

/-- R197: RET pops into `ip`, or halts with the advanced `ip` when the stack is empty. -/
def Obligations.RetFollowsItsRule : Prop :=
  ∀ s : State,
    encode .ret = [18] ∧
    (s.stack = [] → exec .ret s = .next { s with ip := ipAfter s 1, runState := .halted }) ∧
    (∀ t rest, s.stack = t :: rest → exec .ret s = .next { s with ip := t, stack := rest })

/-- R196, R197: a RET after a CALL restores exactly the address after the CALL, and the stack as it was
before it. -/
def Obligations.RetUndoesCall : Prop :=
  ∀ (a : Word16) (s : State) (t : Word15), ¬ StackFull s → Denotes s a t →
    ∃ u, exec (.call a) s = .next u ∧ u.ip = t ∧ exec .ret u = .next { s with ip := ipAfter s 2 }

/-! ### Input and output -/

/-- R220, R221 (decision D15): OUT hands its value to the sink after every earlier one, and never waits
(the sink as a list of codes is the model's form, log entry 7). -/
def Obligations.OutFollowsItsRule : Prop :=
  ∀ (a : Word16) (s : State),
    encode (.out a) = [19, a] ∧
    (InvalidWord a → RaisesOnly s (.out a) 2 .invalidOperand a) ∧
    (∀ v, Denotes s a v → exec (.out a) s = .next { s with ip := ipAfter s 2, output := s.output ++ [v] })

/-- R226 (decision D13): the port gives the queue's characters, then each line's with a newline after
them, each once and in order; it reports end of input, or waits, only when nothing is left (the provider as
data is the model's form, log entry 5). -/
def Obligations.InputPortDeliversInOrder : Prop :=
  ∀ q : InputPort,
    (∀ ch rest, q.take = .char ch rest → q.pending = ch :: rest.pending ∧ rest.ended = q.ended) ∧
    (q.take = .endOfInput ↔ q.pending = [] ∧ q.ended = true) ∧
    (q.take = .noAnswer ↔ q.pending = [] ∧ q.ended = false)

/-- R222 (decisions D8, D13): IN of a character that is not the enabled sentinel. The character is gone
whether the destination is valid or not. -/
def Obligations.InStoresAnOrdinaryCharacter : Prop :=
  ∀ (a ch : Word16) (rest : InputPort) (s : State), s.waiting = none → s.input.take = .char ch rest →
    s.params.sentinelEnable = false ∨ ch.toNat ≠ 36 →
    (InvalidWord a →
      exec (.inp a) s = .next (errorState s.ip .invalidOperand a
        { s with ip := ipAfter s 2, input := rest })) ∧
    (¬ InvalidWord a → a.toNat ≤ 32767 ∨ ch.toNat ≤ 32767 ∨ s.params.wideStore = .mask15 →
      ∃ t, exec (.inp a) s = .next t ∧
        t = { s with ip := ipAfter s 2, input := rest, regs := t.regs, mem := t.mem } ∧
        Stored s t a (if a.toNat ≤ 32767 then ch.toNat else ch.toNat % 32768)) ∧
    (¬ InvalidWord a → 32768 ≤ a.toNat → 32767 < ch.toNat → s.params.wideStore = .fault →
      exec (.inp a) s = .next (errorState s.ip .wideValue ch
        { s with ip := ipAfter s 2, input := rest }))

/-- R223 (decision D14): the enabled sentinel sets register 7 to 25734, whatever the destination word is;
no other register and no cell changes. -/
def Obligations.InSentinelSetsRegisterSeven : Prop :=
  ∀ (a ch : Word16) (rest : InputPort) (s : State), s.waiting = none → s.input.take = .char ch rest →
    s.params.sentinelEnable = true → ch.toNat = 36 →
    ∃ t, exec (.inp a) s = .next t ∧ t = { s with ip := ipAfter s 2, input := rest, regs := t.regs } ∧
      (t.reg 7).toNat = 25734 ∧ ∀ i : Fin 8, i ≠ 7 → t.reg i = s.reg i

/-- R226, R124 (decision D13): IN at end of input raises INPUT_END with nothing written; with no answer
yet the step waits, keeping its own address and destination word (the form of the wait is the model's,
log entry 6). -/
def Obligations.InAtEndOfInputOrWaiting : Prop :=
  ∀ (a : Word16) (s : State), s.waiting = none →
    encode (.inp a) = [20, a] ∧
    (s.input.take = .endOfInput → RaisesOnly s (.inp a) 2 .inputEnd 0) ∧
    (s.input.take = .noAnswer →
      exec (.inp a) s =
        .next { s with ip := ipAfter s 2, waiting := some { addr := s.ip, dest := a } })

/-- R124, R226, R284: whatever the provider `q` holds when a waiting IN asks again (a script, a line, end of
input, or still nothing), the step goes on as the IN would have gone on had the provider held it from the
start. At end of input it ends in INPUT_END, with `FAULT_WORD` 0 and `FAULT_PC` the IN's own address. The
form of the wait is the model's (log entry 6). -/
def Obligations.WaitingInEndsAsIfAnsweredAtOnce : Prop :=
  ∀ (a : Word16) (s t : State) (q : InputPort), s.runState = .running → s.waiting = none →
    s.input.take = .noAnswer → exec (.inp a) s = .next t →
    step { t with input := q } = exec (.inp a) { s with input := q } ∧
    (q.take = .endOfInput → step { t with input := q } =
      .next (errorState s.ip .inputEnd 0 { s with ip := ipAfter s 2, input := q }))

/-! ### Frames: what an instruction leaves unchanged -/

/-- R22: an instruction changes no register but its destination register; IN may set register 7 by the
sentinel path, and then only when it is enabled. -/
def Obligations.OtherRegistersAreKept : Prop :=
  ∀ (i : Instr) (s t : State) (r : Fin 8), exec i s = .next t →
    (∀ d, destWord i = some d → d.toNat ≠ 32768 + r.val) →
    (∀ a, i = .inp a → r = 7 → s.params.sentinelEnable = false) →
    t.reg r = s.reg r

/-- R52, R54, R144: an instruction changes no cell but the one its literal destination names, or the one
WMEM's resolved address names. -/
def Obligations.OtherCellsAreKept : Prop :=
  ∀ (i : Instr) (s t : State) (x : Word15), exec i s = .next t →
    (∀ d, destWord i = some d → d.toNat ≠ x.toNat) →
    (∀ a b y, i = .wmem a b → Denotes s a y → y ≠ x) →
    t.cell x = s.cell x

/-- R29: only PUSH and CALL add an entry, and only POP and RET remove one; no step does more than one of
the two. -/
def Obligations.StackChangesOnlyByItsInstructions : Prop :=
  ∀ (i : Instr) (s t : State), exec i s = .next t →
    t.stack = s.stack ∨
    ((∃ a, i = .push a ∨ i = .call a) ∧ ∃ v, t.stack = v :: s.stack) ∨
    ((i = .ret ∨ ∃ a, i = .pop a) ∧ ∃ v, s.stack = v :: t.stack)

/-- R25, R114, R195 (decision D4 for the wrap): `ip` after an instruction is the advanced one, or, for a
control transfer, the resolved value of an operand or the popped entry. -/
def Obligations.InstructionPointerWriters : Prop :=
  ∀ (i : Instr) (s t : State), exec i s = .next t →
    t.ip = ipAfter s (encode i).length ∨
    (isTransfer i = true ∧
      ((∃ w ∈ i.operands, Denotes s w t.ip) ∨ (i = .ret ∧ s.stack = t.ip :: t.stack)))

/-- R27, R28, R190, R197, R270: `STATUS` and the fault registers change only when the instruction raises
a cause that R270 lists for it, with `FAULT_PC` its own address, or when HLT or RET halts. -/
def Obligations.StatusChangesOnlyByErrorOrHalt : Prop :=
  ∀ (i : Instr) (s t : State), exec i s = .next t →
    (t.runState = .error ∧ t.cause ∈ mayRaise i ∧ t.faultPc = s.ip) ∨
    (t.cause = s.cause ∧ t.faultWord = s.faultWord ∧ t.faultPc = s.faultPc ∧
      (t.runState = s.runState ∨ (t.runState = .halted ∧ (i = .hlt ∨ (i = .ret ∧ s.stack = [])))))

/-- R221, R226: only OUT adds to the output, and only IN takes input or waits. That the OPEN parameters of R5
are a field of State that no instruction changes is the model's choice (log entry 1), as are the records of
output and input (log entries 5 and 7). -/
def Obligations.PortsChangeOnlyByInAndOut : Prop :=
  ∀ (i : Instr) (s t : State), exec i s = .next t →
    t.params = s.params ∧
    ((∀ a, i ≠ .out a) → t.output = s.output) ∧
    ((∀ a, i ≠ .inp a) → t.input = s.input ∧ t.waiting = s.waiting)

/-! ### Rules about every step -/

/-- R122: one step writes at most one slot, pushes or pops at most one entry, emits at most one character
and takes at most one. -/
def Obligations.OneStepWritesAtMostOneSlot : Prop :=
  ∀ s t : State, step s = .next t →
    (∀ x y, t.cell x ≠ s.cell x → t.cell y ≠ s.cell y → x = y) ∧
    (∀ i j, t.reg i ≠ s.reg i → t.reg j ≠ s.reg j → i = j) ∧
    (∀ x i, t.cell x ≠ s.cell x → t.reg i = s.reg i) ∧
    (t.stack = s.stack ∨ (∃ v, t.stack = v :: s.stack) ∨ ∃ v, s.stack = v :: t.stack) ∧
    (t.output = s.output ∨ ∃ v, t.output = s.output ++ [v]) ∧
    (t.input.pending = s.input.pending ∨ ∃ ch, s.input.pending = ch :: t.input.pending)

/-- R275: a step that raises Error has written no slot, no memory, no target and no output; what it can
leave is the advance, CALL's pushed return address, POP's popped entry and IN's taken character. -/
def Obligations.ErrorLeavesOnlyPartialEffects : Prop :=
  ∀ s t : State, s.runState = .running → step s = .next t → t.runState = .error →
    (∀ i, t.reg i = s.reg i) ∧ (∀ x, t.cell x = s.cell x) ∧ t.output = s.output ∧
    (t.ip = s.ip ∨ ∃ n, 1 ≤ n ∧ n ≤ 4 ∧ t.ip = ipAfter s n) ∧
    (t.stack = s.stack ∨ t.stack = ipAfter s 2 :: s.stack ∨ ∃ v, s.stack = v :: t.stack) ∧
    (t.input.pending = s.input.pending ∨ ∃ ch, s.input.pending = ch :: t.input.pending)

/-- R125, R271 (decision D4): a running machine halts only by HLT, or by RET with an empty stack. -/
def Obligations.HaltedOnlyByHltOrEmptyRet : Prop :=
  ∀ s t : State, s.runState = .running → step s = .next t → t.runState = .halted →
    s.waiting = none ∧ ((s.cell s.ip).toNat = 0 ∨ ((s.cell s.ip).toNat = 18 ∧ s.stack = []))

/-- R90: an instruction with no invalid operand word raises no INVALID_OPERAND. -/
def Obligations.WellFormedNeverRaisesInvalidOperand : Prop :=
  ∀ (i : Instr) (s t : State), i.wellFormed = true → s.cause ≠ .invalidOperand →
    exec i s = .next t → t.cause ≠ .invalidOperand

/-- R27, R28, R30, R42: every step keeps the invariant. Its clauses on the canonical memory and on a step in
progress are the model's (log entries 2 and 6). -/
def Obligations.StepKeepsInvariant : Prop :=
  ∀ s t : State, s.Inv → step s = .next t → t.Inv

/-- R40: the state after reset has the invariant (reset as the load of an empty image is the model's, log
entry 4). -/
def Obligations.ResetHasInvariant : Prop := State.reset.Inv

/-- R42: the invariant holds in every state that loads, steps, host operations and the input provider
reach (who may act when is the model's reading, log entries 5 and 13). -/
def Obligations.ReachableStatesHaveInvariant : Prop :=
  ∀ s : State, Reachable s → s.Inv

/-- R37, R276 (decision D22): from Halted or Error no event but a load changes `STATE`, `CAUSE`, the
fault registers, `ip` or the stack. -/
def Obligations.OnlyALoadLeavesATerminalStatus : Prop :=
  ∀ (e : Event) (s t : State), s.Terminal → applyEvent e s = some t →
    (∃ image patches, e = .load image patches) ∨
    (t.runState = s.runState ∧ t.cause = s.cause ∧ t.faultWord = s.faultWord ∧ t.faultPc = s.faultPc ∧
      t.ip = s.ip ∧ t.stack = s.stack ∧ t.output = s.output)

/-! ### Host port, status word, loader -/

/-- R34 (decision D12): between steps each host operation returns what its row says and changes the one
cell or register it names, in any status; while a step is in progress none is let in. -/
def Obligations.HostOperations : Prop :=
  ∀ s : State,
    (s.waiting ≠ none → ∀ op, hostOp op s = none) ∧
    (s.waiting = none →
    (∀ i, hostOp (.readReg i) s = some (.word15 (s.reg i), s)) ∧
    (∀ a, hostOp (.readMem a) s = some (.word16 (s.cell a), s)) ∧
    hostOp .readIp s = some (.word15 s.ip, s) ∧
    hostOp .readStatus s = some (.status s.statusWord s.faultWord s.faultPc, s) ∧
    (∀ i v, ∃ t, hostOp (.writeReg i v) s = some (.done, t) ∧ t = { s with regs := t.regs } ∧
      t.reg i = v ∧ ∀ j, j ≠ i → t.reg j = s.reg j) ∧
    (∀ a v, ∃ t, hostOp (.writeMem a v) s = some (.done, t) ∧ t = { s with mem := t.mem } ∧
      t.cell a = v ∧ ∀ x, x ≠ a → t.cell x = s.cell x))

/-- R27, R270 (decision D11): the bits of `STATUS`. -/
def Obligations.StatusWordLayout : Prop :=
  ∀ s : State,
    s.statusWord.toNat < 32 ∧
    s.statusWord.toNat % 4 =
      (match s.runState with | .running => 0 | .halted => 1 | .error => 2) ∧
    s.statusWord.toNat / 4 =
      (match s.cause with
        | .none => 0 | .invalidOperand => 1 | .stackUnderflow => 2 | .undefinedOpcode => 3
        | .divideByZero => 4 | .inputEnd => 5 | .stackOverflow => 6 | .wideValue => 7)

/-- R302, R303, R304 (decisions D3, D11): a load that is not rejected leaves in a cell the last patch to
it, and without one the image's word, or 0 past the image; the registers are 0, the stack is empty, `ip`
is 0, `STATE` is Running, `CAUSE` is NONE and the fault registers are 0. Every patch of it is in range, so a
load with any other patch is rejected. -/
def Obligations.LoadBuildsTheState : Prop :=
  ∀ (ps : Params) (image : List Byte) (patches : List Patch) (s : State),
    load ps image patches = .ok s →
    (∀ x : Word15, (∀ p ∈ patches, p.addr ≠ x.toNat) → (s.cell x).toNat = imageWord image x.toNat) ∧
    (∀ (before after : List Patch) (p : Patch) (x : Word15),
      patches = before ++ p :: after → p.addr = x.toNat → (∀ q ∈ after, q.addr ≠ x.toNat) →
      (s.cell x).toNat = p.value) ∧
    (∀ p ∈ patches, p.addr < 32768 ∧ p.value < 65536) ∧
    (∀ i, s.reg i = 0) ∧ s.stack = [] ∧ s.ip = 0 ∧ s.runState = .running ∧ s.cause = .none ∧
    s.faultWord = 0 ∧ s.faultPc = 0

/-- R301, R303 (decision D23): which loads are rejected, and that every other is accepted. The order of
the checks is the model's (log entry 10). -/
def Obligations.LoadRejections : Prop :=
  ∀ (ps : Params) (image : List Byte) (patches : List Patch),
    (65536 < image.length → load ps image patches = .error .imageTooLarge) ∧
    (image.length ≤ 65536 → image.length % 2 = 1 → load ps image patches = .error .malformedImage) ∧
    (image.length ≤ 65536 → image.length % 2 = 0 →
      (∃ p ∈ patches, 32768 ≤ p.addr ∨ 65536 ≤ p.value) →
      load ps image patches = .error .patchOutOfRange) ∧
    (image.length ≤ 65536 → image.length % 2 = 0 →
      (∀ p ∈ patches, p.addr < 32768 ∧ p.value < 65536) → ∃ s, load ps image patches = .ok s)

/-- R305, R226: after a load, the pre-loaded script without its carriage returns (code 13, log entry 15) is
what the input port gives first, then an interactive line and its newline; the block's own state is as the
load left it. That a load leaves the provider with nothing to give is the model's choice (log entry 9). -/
def Obligations.PreloadedScriptIsDeliveredFirst : Prop :=
  ∀ (ps : Params) (image : List Byte) (patches : List Patch) (s : State) (script line : List Word16),
    load ps image patches = .ok s →
    s.preload script = { s with input := (s.preload script).input } ∧
    (s.preload script).input.pending = script.filter (fun ch => ch.toNat ≠ 13) ∧
    ((s.preload script).supplyLine line).input.pending =
      script.filter (fun ch => ch.toNat ≠ 13) ++ line ++ [10]

/-- R40, R307: an empty image with no patches loads to the reset state (the model's reset is this load, log
entry 4), and its first step halts with `ip` = 1. -/
def Obligations.EmptyImageHaltsAtOnce : Prop :=
  load Params.default [] [] = .ok State.reset ∧
  step State.reset = .next { State.reset with ip := 1, runState := .halted }

/-! ### The disassembler -/

/-- R240: the entries of a listing, in order, cover every address `0..32767` exactly once and show every
cell. -/
def Obligations.ListingCoversMemoryOnce : Prop :=
  ∀ m : Memory,
    (disassemble m).flatMap Entry.covers = List.range 32768 ∧
    (disassemble m).flatMap Entry.shown =
      (List.range 32768).map fun p => Memory.cell m (BitVec.ofNat 15 p)

/-- R249: a pass gives between 8192 and 32768 entries, one line each. -/
def Obligations.ListingLengthBounds : Prop :=
  ∀ m : Memory, 8192 ≤ (disassemble m).length ∧ (disassemble m).length ≤ 32768

/-- R240: the listing is a function of the cells' values alone. -/
def Obligations.ListingDependsOnCellsAlone : Prop :=
  ∀ m m' : Memory, (∀ x, Memory.cell m x = Memory.cell m' x) → disassemble m = disassemble m'

/-- R252: zero-filled memory is listed as one HLT for each of the 32768 words. -/
def Obligations.ZeroMemoryListsAsHlt : Prop :=
  ∀ m : Memory, (∀ x, Memory.cell m x = 0) →
    disassemble m = (List.range 32768).map fun p => Entry.instr (BitVec.ofNat 15 p) [0] "HLT" [] false

/-- R241, R242, R243, R245, R250 (decisions D17, D18): each entry is sound. A data entry shows the cell at its
address, which is an undefined opcode, or stands at or after an entry whose opcode's words do not fit below
the top of memory. An instruction entry's words fit, and no entry before it has an opcode whose words do
not; its first word is a defined opcode with that row's mnemonic and arity, and it is marked exactly when it
has an invalid token. -/
def Obligations.ListingEntriesAreSound : Prop :=
  ∀ (m : Memory) (before after : List Entry) (e : Entry), disassemble m = before ++ e :: after →
    (∀ addr word, e = .data addr word → word = Memory.cell m addr ∧
      (22 ≤ word.toNat ∨ ∃ e' ∈ before ++ [e], ∃ row, rowOf (Memory.cell m e'.addr) = some row ∧
        32768 < e'.addr.toNat + row.arity)) ∧
    (∀ addr words mnemonic operands error, e = .instr addr words mnemonic operands error →
      addr.toNat + words.length ≤ 32768 ∧
      (∀ e' ∈ before, ∀ row, rowOf (Memory.cell m e'.addr) = some row →
        e'.addr.toNat + row.arity ≤ 32768) ∧
      ∃ row, rowOf (words.getD 0 0) = some row ∧ mnemonic = row.mnemonic ∧ words.length = row.arity ∧
        operands = (words.drop 1).map (token row) ∧ (error = true ↔ ∃ v, .invalid v ∈ operands))

/-- R244 (decision D16): OUT's operand is a character whatever its word is; every other operand is a
literal, a register or invalid by its range. -/
def Obligations.TokenRule : Prop :=
  ∀ (op v : Word16) (row : TableRow), rowOf op = some row →
    (op.toNat = 19 → token row v = .char v) ∧
    (op.toNat ≠ 19 → v.toNat ≤ 32767 → ∃ x : Word15, token row v = .hex x ∧ x.toNat = v.toNat) ∧
    (op.toNat ≠ 19 → ∀ i : Fin 8, v.toNat = 32768 + i.val → token row v = .reg i) ∧
    (op.toNat ≠ 19 → 32776 ≤ v.toNat → token row v = .invalid v)
end

