-- ==== Sys2Proof/Laws/PerInstr.lean ====
section
/-! SUPPORT. Facts about every instruction as syntax, one lemma for each constructor. -/

/-- The opcode word of an instruction's encoding selects a table row with its opcode, and that row's arity
is the encoding's length, 1 to 4 words (R80, R87, R88). -/
def Sys2Proof.Laws.TableRow.Statement (i : Sys2Proof.Instr) : Prop :=
  ∃ row, Sys2Proof.rowOf ((Sys2Proof.encode i).getD 0 0) = some row ∧ row.opcode = i.opcode ∧
    row.arity = (Sys2Proof.encode i).length ∧ 1 ≤ row.arity ∧ row.arity ≤ 4

namespace Sys2Proof.Laws.TableRow

theorem hlt : Statement .hlt := ⟨⟨0, "HLT", 1, false⟩, rfl, rfl, rfl, by decide, by decide⟩
theorem set (a b : Word16) : Statement (.set a b) :=
  ⟨⟨1, "SET", 3, false⟩, rfl, rfl, rfl, by decide, by decide⟩
theorem push (a : Word16) : Statement (.push a) :=
  ⟨⟨2, "PUSH", 2, false⟩, rfl, rfl, rfl, by decide, by decide⟩
theorem pop (a : Word16) : Statement (.pop a) :=
  ⟨⟨3, "POP", 2, false⟩, rfl, rfl, rfl, by decide, by decide⟩
theorem eq (a b c : Word16) : Statement (.eq a b c) :=
  ⟨⟨4, "EQ", 4, false⟩, rfl, rfl, rfl, by decide, by decide⟩
theorem gt (a b c : Word16) : Statement (.gt a b c) :=
  ⟨⟨5, "GT", 4, false⟩, rfl, rfl, rfl, by decide, by decide⟩
theorem jmp (a : Word16) : Statement (.jmp a) :=
  ⟨⟨6, "JMP", 2, false⟩, rfl, rfl, rfl, by decide, by decide⟩
theorem jt (a b : Word16) : Statement (.jt a b) :=
  ⟨⟨7, "JT", 3, false⟩, rfl, rfl, rfl, by decide, by decide⟩
theorem jf (a b : Word16) : Statement (.jf a b) :=
  ⟨⟨8, "JF", 3, false⟩, rfl, rfl, rfl, by decide, by decide⟩
theorem add (a b c : Word16) : Statement (.add a b c) :=
  ⟨⟨9, "ADD", 4, false⟩, rfl, rfl, rfl, by decide, by decide⟩
theorem mult (a b c : Word16) : Statement (.mult a b c) :=
  ⟨⟨10, "MULT", 4, false⟩, rfl, rfl, rfl, by decide, by decide⟩
theorem mod (a b c : Word16) : Statement (.mod a b c) :=
  ⟨⟨11, "MOD", 4, false⟩, rfl, rfl, rfl, by decide, by decide⟩
theorem and (a b c : Word16) : Statement (.and a b c) :=
  ⟨⟨12, "AND", 4, false⟩, rfl, rfl, rfl, by decide, by decide⟩
theorem or (a b c : Word16) : Statement (.or a b c) :=
  ⟨⟨13, "OR", 4, false⟩, rfl, rfl, rfl, by decide, by decide⟩
theorem not (a b : Word16) : Statement (.not a b) :=
  ⟨⟨14, "NOT", 3, false⟩, rfl, rfl, rfl, by decide, by decide⟩
theorem rmem (a b : Word16) : Statement (.rmem a b) :=
  ⟨⟨15, "RMEM", 3, false⟩, rfl, rfl, rfl, by decide, by decide⟩
theorem wmem (a b : Word16) : Statement (.wmem a b) :=
  ⟨⟨16, "WMEM", 3, false⟩, rfl, rfl, rfl, by decide, by decide⟩
theorem call (a : Word16) : Statement (.call a) :=
  ⟨⟨17, "CALL", 2, false⟩, rfl, rfl, rfl, by decide, by decide⟩
theorem ret : Statement .ret := ⟨⟨18, "RET", 1, false⟩, rfl, rfl, rfl, by decide, by decide⟩
theorem out (a : Word16) : Statement (.out a) :=
  ⟨⟨19, "OUT", 2, true⟩, rfl, rfl, rfl, by decide, by decide⟩
theorem inp (a : Word16) : Statement (.inp a) :=
  ⟨⟨20, "IN", 2, false⟩, rfl, rfl, rfl, by decide, by decide⟩
theorem noop : Statement .noop := ⟨⟨21, "NOOP", 1, false⟩, rfl, rfl, rfl, by decide, by decide⟩

/-- The lemmas above as one fact about every instruction. -/
theorem of_instr (i : Instr) : Statement i :=
  match i with
  | .hlt => hlt
  | .set a b => set a b
  | .push a => push a
  | .pop a => pop a
  | .eq a b c => eq a b c
  | .gt a b c => gt a b c
  | .jmp a => jmp a
  | .jt a b => jt a b
  | .jf a b => jf a b
  | .add a b c => add a b c
  | .mult a b c => mult a b c
  | .mod a b c => mod a b c
  | .and a b c => and a b c
  | .or a b c => or a b c
  | .not a b => not a b
  | .rmem a b => rmem a b
  | .wmem a b => wmem a b
  | .call a => call a
  | .ret => ret
  | .out a => out a
  | .inp a => inp a
  | .noop => noop

end Sys2Proof.Laws.TableRow
end

