-- ==== Sys2Proof/Laws/Decode.lean ====
section
/-! SUPPORT. The decoder through its table: what a row, and an instruction the decoder gives, say of the
words they were read from. -/

namespace Sys2Proof

/-- The encoding's length is the number of words. -/
theorem length_encode (i : Instr) : (encode i).length = i.length := rfl

/-- The row an opcode word selects has that opcode and is a row of the table. -/
theorem rowOf_some {op : Word16} {row : TableRow} (h : rowOf op = some row) :
    row.opcode = op.toNat ∧ row ∈ instructionTable :=
  ⟨by simpa using List.find?_some h, List.mem_of_find?_eq_some h⟩

/-- A word that selects no row is an undefined opcode (R89). -/
theorem rowOf_none {op : Word16} (h : rowOf op = none) : 22 ≤ op.toNat := by
  have hrow : ∀ n < 22, ∃ r ∈ instructionTable, r.opcode = n := by decide
  rw [rowOf, List.find?_eq_none] at h
  by_contra hn
  obtain ⟨r, hr, he⟩ := hrow op.toNat (by omega)
  exact h r hr (by simp [he])

/-- Every row's arity is 1 to 4 words (R80). -/
theorem arity_bound {row : TableRow} (h : row ∈ instructionTable) : 1 ≤ row.arity ∧ row.arity ≤ 4 := by
  have hall : ∀ r ∈ instructionTable, 1 ≤ r.arity ∧ r.arity ≤ 4 := by decide
  exact hall row h

/-- The decoder gives an instruction whose words it is shown. -/
theorem decodeWith_encode (i : Instr) (word : Nat → Word16)
    (h : ∀ k w, (encode i)[k]? = some w → word k = w) : decodeWith word = some i := by
  have h0 := h 0 _ rfl
  have h1 := h 1
  have h2 := h 2
  have h3 := h 3
  cases i <;> simp [encode, Instr.opcode, Instr.operands] at h0 h1 h2 h3 <;> simp [decodeWith, *]

/-- The words a decoded instruction was read from are its opcode and its operands, in order (R80). -/
theorem decodeWith_some {word : Nat → Word16} {i : Instr} (h : decodeWith word = some i) :
    i.opcode = (word 0).toNat ∧
      i.operands = (List.range i.operands.length).map fun k => word (k + 1) := by
  unfold decodeWith at h
  split at h <;> cases h <;> rename_i hop <;>
    simp [Instr.opcode, Instr.operands, hop, List.range, List.range.loop]

end Sys2Proof
end

