-- ==== Sys2Proof/Laws/Disassembler.lean ====
section
/-! SUPPORT. The disassembler's pass: its three ways on, and the shape of what it lists. -/

namespace Sys2Proof.Machine

/-- `n` cells from `p` on, by address. -/
theorem cellsFrom_eq (m : Memory) (p n : Nat) :
    cellsFrom m p n = (List.range' p n).map (Memory.cellAt m) := by
  induction n generalizing p with
  | zero => rfl
  | succ n ih => simp [cellsFrom, ih, List.range'_succ]

@[simp] theorem length_cellsFrom (m : Memory) (p n : Nat) : (cellsFrom m p n).length = n := by
  simp [cellsFrom_eq]

/-- `n` data entries from `p` on, by address (R250). -/
theorem dataEntries_eq (m : Memory) (p n : Nat) :
    dataEntries m p n =
      (List.range' p n).map fun q => Entry.data (BitVec.ofNat 15 q) (Memory.cellAt m q) := by
  induction n generalizing p with
  | zero => rfl
  | succ n ih => simp [dataEntries, ih, List.range'_succ]

/-- At an undefined opcode the pass lists one data word and goes on one word (R243). -/
theorem passFrom_of_undefined {m : Memory} {fuel p : Nat} (hp : p < 32768)
    (h : rowOf (Memory.cellAt m p) = none) :
    passFrom m (fuel + 1) p =
      .data (BitVec.ofNat 15 p) (Memory.cellAt m p) :: passFrom m fuel (p + 1) := by
  simp [passFrom, show p < memWords from hp, h]

/-- At a defined opcode whose words fit the pass lists the instruction and goes on by its arity (R242). -/
theorem passFrom_of_fits {m : Memory} {fuel p : Nat} {row : TableRow} (hp : p < 32768)
    (h : rowOf (Memory.cellAt m p) = some row) (hf : p + row.arity ≤ 32768) :
    passFrom m (fuel + 1) p = instrEntry m p row :: passFrom m fuel (p + row.arity) := by
  simp [passFrom, show p < memWords from hp, h, show p + row.arity ≤ memWords from hf]

/-- At a defined opcode whose words do not fit the pass lists the rest as data and ends (R250). -/
theorem passFrom_of_not_fits {m : Memory} {fuel p : Nat} {row : TableRow} (hp : p < 32768)
    (h : rowOf (Memory.cellAt m p) = some row) (hf : ¬ p + row.arity ≤ 32768) :
    passFrom m (fuel + 1) p = dataEntries m p (32768 - p) := by
  simp [passFrom, show p < memWords from hp, h, show ¬ p + row.arity ≤ memWords from hf]
  rfl

/-- Past the top of memory the pass has ended. -/
theorem passFrom_of_end (m : Memory) (fuel p : Nat) (hp : 32768 ≤ p) : passFrom m fuel p = [] := by
  cases fuel with
  | zero => rfl
  | succ fuel => simp [passFrom, show ¬ p < memWords from by unfold memWords; omega]

/-- Zero words are listed one by one, and the pass goes on after them (R252). -/
theorem passFrom_of_zeros {m : Memory} {fuel : Nat} : ∀ {n p : Nat}, p + n ≤ 32768 →
    (∀ q, p ≤ q → q < p + n → Memory.cellAt m q = 0) →
    ∃ zeros, passFrom m (fuel + n) p = zeros ++ passFrom m fuel (p + n) := by
  intro n
  induction n with
  | zero => exact fun _ _ => ⟨[], rfl⟩
  | succ n ih =>
    intro p hp h
    have h0 : rowOf (Memory.cellAt m p) = some ⟨0, "HLT", 1, false⟩ := by
      rw [h p (by omega) (by omega)]; rfl
    obtain ⟨zeros, hz⟩ := ih (p := p + 1) (by omega) fun q h1 h2 => h q (by omega) (by omega)
    refine ⟨instrEntry m p ⟨0, "HLT", 1, false⟩ :: zeros, ?_⟩
    rw [← Nat.add_assoc, passFrom_of_fits (by omega) h0 (by simp; omega), hz, Nat.add_right_comm p 1 n]
    rfl

end Sys2Proof.Machine
end

