-- ==== Sys2Proof/Laws/State.lean ====
section
/-! SUPPORT. One lemma for each field under each named update of the state, so that no proof unfolds a
record update. -/

namespace Sys2Proof.Machine

/-! ### `advance` -/

@[simp] theorem advance_params (s : State) (n : Nat) :
    (s.advance n).params = s.params := rfl
@[simp] theorem advance_regs (s : State) (n : Nat) :
    (s.advance n).regs = s.regs := rfl
@[simp] theorem advance_ip (s : State) (n : Nat) :
    (s.advance n).ip = s.ip + BitVec.ofNat 15 n := rfl
@[simp] theorem advance_stack (s : State) (n : Nat) :
    (s.advance n).stack = s.stack := rfl
@[simp] theorem advance_mem (s : State) (n : Nat) :
    (s.advance n).mem = s.mem := rfl
@[simp] theorem advance_runState (s : State) (n : Nat) :
    (s.advance n).runState = s.runState := rfl
@[simp] theorem advance_cause (s : State) (n : Nat) :
    (s.advance n).cause = s.cause := rfl
@[simp] theorem advance_faultWord (s : State) (n : Nat) :
    (s.advance n).faultWord = s.faultWord := rfl
@[simp] theorem advance_faultPc (s : State) (n : Nat) :
    (s.advance n).faultPc = s.faultPc := rfl
@[simp] theorem advance_input (s : State) (n : Nat) :
    (s.advance n).input = s.input := rfl
@[simp] theorem advance_output (s : State) (n : Nat) :
    (s.advance n).output = s.output := rfl
@[simp] theorem advance_waiting (s : State) (n : Nat) :
    (s.advance n).waiting = s.waiting := rfl

/-! ### `setReg` -/

@[simp] theorem setReg_params (s : State) (i : Fin 8) (v : Word15) :
    (s.setReg i v).params = s.params := rfl
@[simp] theorem setReg_regs (s : State) (i : Fin 8) (v : Word15) :
    (s.setReg i v).regs = s.regs.set i v := rfl
@[simp] theorem setReg_ip (s : State) (i : Fin 8) (v : Word15) :
    (s.setReg i v).ip = s.ip := rfl
@[simp] theorem setReg_stack (s : State) (i : Fin 8) (v : Word15) :
    (s.setReg i v).stack = s.stack := rfl
@[simp] theorem setReg_mem (s : State) (i : Fin 8) (v : Word15) :
    (s.setReg i v).mem = s.mem := rfl
@[simp] theorem setReg_runState (s : State) (i : Fin 8) (v : Word15) :
    (s.setReg i v).runState = s.runState := rfl
@[simp] theorem setReg_cause (s : State) (i : Fin 8) (v : Word15) :
    (s.setReg i v).cause = s.cause := rfl
@[simp] theorem setReg_faultWord (s : State) (i : Fin 8) (v : Word15) :
    (s.setReg i v).faultWord = s.faultWord := rfl
@[simp] theorem setReg_faultPc (s : State) (i : Fin 8) (v : Word15) :
    (s.setReg i v).faultPc = s.faultPc := rfl
@[simp] theorem setReg_input (s : State) (i : Fin 8) (v : Word15) :
    (s.setReg i v).input = s.input := rfl
@[simp] theorem setReg_output (s : State) (i : Fin 8) (v : Word15) :
    (s.setReg i v).output = s.output := rfl
@[simp] theorem setReg_waiting (s : State) (i : Fin 8) (v : Word15) :
    (s.setReg i v).waiting = s.waiting := rfl

/-! ### `setCell` -/

@[simp] theorem setCell_params (s : State) (x : Word15) (v : Word16) :
    (s.setCell x v).params = s.params := rfl
@[simp] theorem setCell_regs (s : State) (x : Word15) (v : Word16) :
    (s.setCell x v).regs = s.regs := rfl
@[simp] theorem setCell_ip (s : State) (x : Word15) (v : Word16) :
    (s.setCell x v).ip = s.ip := rfl
@[simp] theorem setCell_stack (s : State) (x : Word15) (v : Word16) :
    (s.setCell x v).stack = s.stack := rfl
@[simp] theorem setCell_mem (s : State) (x : Word15) (v : Word16) :
    (s.setCell x v).mem = Memory.setCell s.mem x v := rfl
@[simp] theorem setCell_runState (s : State) (x : Word15) (v : Word16) :
    (s.setCell x v).runState = s.runState := rfl
@[simp] theorem setCell_cause (s : State) (x : Word15) (v : Word16) :
    (s.setCell x v).cause = s.cause := rfl
@[simp] theorem setCell_faultWord (s : State) (x : Word15) (v : Word16) :
    (s.setCell x v).faultWord = s.faultWord := rfl
@[simp] theorem setCell_faultPc (s : State) (x : Word15) (v : Word16) :
    (s.setCell x v).faultPc = s.faultPc := rfl
@[simp] theorem setCell_input (s : State) (x : Word15) (v : Word16) :
    (s.setCell x v).input = s.input := rfl
@[simp] theorem setCell_output (s : State) (x : Word15) (v : Word16) :
    (s.setCell x v).output = s.output := rfl
@[simp] theorem setCell_waiting (s : State) (x : Word15) (v : Word16) :
    (s.setCell x v).waiting = s.waiting := rfl

/-! ### `enterError` -/

@[simp] theorem enterError_params (s : State) (p : Word15) (e : Raise) :
    (enterError p e s).params = s.params := rfl
@[simp] theorem enterError_regs (s : State) (p : Word15) (e : Raise) :
    (enterError p e s).regs = s.regs := rfl
@[simp] theorem enterError_ip (s : State) (p : Word15) (e : Raise) :
    (enterError p e s).ip = s.ip := rfl
@[simp] theorem enterError_stack (s : State) (p : Word15) (e : Raise) :
    (enterError p e s).stack = s.stack := rfl
@[simp] theorem enterError_mem (s : State) (p : Word15) (e : Raise) :
    (enterError p e s).mem = s.mem := rfl
@[simp] theorem enterError_runState (s : State) (p : Word15) (e : Raise) :
    (enterError p e s).runState = .error := rfl
@[simp] theorem enterError_cause (s : State) (p : Word15) (e : Raise) :
    (enterError p e s).cause = e.cause := rfl
@[simp] theorem enterError_faultWord (s : State) (p : Word15) (e : Raise) :
    (enterError p e s).faultWord = e.word := rfl
@[simp] theorem enterError_faultPc (s : State) (p : Word15) (e : Raise) :
    (enterError p e s).faultPc = p := rfl
@[simp] theorem enterError_input (s : State) (p : Word15) (e : Raise) :
    (enterError p e s).input = s.input := rfl
@[simp] theorem enterError_output (s : State) (p : Word15) (e : Raise) :
    (enterError p e s).output = s.output := rfl
@[simp] theorem enterError_waiting (s : State) (p : Word15) (e : Raise) :
    (enterError p e s).waiting = s.waiting := rfl

/-! ### `preload` -/

@[simp] theorem preload_params (s : State) (script : List Word16) :
    (s.preload script).params = s.params := rfl
@[simp] theorem preload_regs (s : State) (script : List Word16) :
    (s.preload script).regs = s.regs := rfl
@[simp] theorem preload_ip (s : State) (script : List Word16) :
    (s.preload script).ip = s.ip := rfl
@[simp] theorem preload_stack (s : State) (script : List Word16) :
    (s.preload script).stack = s.stack := rfl
@[simp] theorem preload_mem (s : State) (script : List Word16) :
    (s.preload script).mem = s.mem := rfl
@[simp] theorem preload_runState (s : State) (script : List Word16) :
    (s.preload script).runState = s.runState := rfl
@[simp] theorem preload_cause (s : State) (script : List Word16) :
    (s.preload script).cause = s.cause := rfl
@[simp] theorem preload_faultWord (s : State) (script : List Word16) :
    (s.preload script).faultWord = s.faultWord := rfl
@[simp] theorem preload_faultPc (s : State) (script : List Word16) :
    (s.preload script).faultPc = s.faultPc := rfl
@[simp] theorem preload_output (s : State) (script : List Word16) :
    (s.preload script).output = s.output := rfl
@[simp] theorem preload_waiting (s : State) (script : List Word16) :
    (s.preload script).waiting = s.waiting := rfl

/-! ### `supplyLine` -/

@[simp] theorem supplyLine_params (s : State) (line : List Word16) :
    (s.supplyLine line).params = s.params := rfl
@[simp] theorem supplyLine_regs (s : State) (line : List Word16) :
    (s.supplyLine line).regs = s.regs := rfl
@[simp] theorem supplyLine_ip (s : State) (line : List Word16) :
    (s.supplyLine line).ip = s.ip := rfl
@[simp] theorem supplyLine_stack (s : State) (line : List Word16) :
    (s.supplyLine line).stack = s.stack := rfl
@[simp] theorem supplyLine_mem (s : State) (line : List Word16) :
    (s.supplyLine line).mem = s.mem := rfl
@[simp] theorem supplyLine_runState (s : State) (line : List Word16) :
    (s.supplyLine line).runState = s.runState := rfl
@[simp] theorem supplyLine_cause (s : State) (line : List Word16) :
    (s.supplyLine line).cause = s.cause := rfl
@[simp] theorem supplyLine_faultWord (s : State) (line : List Word16) :
    (s.supplyLine line).faultWord = s.faultWord := rfl
@[simp] theorem supplyLine_faultPc (s : State) (line : List Word16) :
    (s.supplyLine line).faultPc = s.faultPc := rfl
@[simp] theorem supplyLine_output (s : State) (line : List Word16) :
    (s.supplyLine line).output = s.output := rfl
@[simp] theorem supplyLine_waiting (s : State) (line : List Word16) :
    (s.supplyLine line).waiting = s.waiting := rfl

/-! ### `endInput` -/

@[simp] theorem endInput_params (s : State) :
    (s.endInput).params = s.params := rfl
@[simp] theorem endInput_regs (s : State) :
    (s.endInput).regs = s.regs := rfl
@[simp] theorem endInput_ip (s : State) :
    (s.endInput).ip = s.ip := rfl
@[simp] theorem endInput_stack (s : State) :
    (s.endInput).stack = s.stack := rfl
@[simp] theorem endInput_mem (s : State) :
    (s.endInput).mem = s.mem := rfl
@[simp] theorem endInput_runState (s : State) :
    (s.endInput).runState = s.runState := rfl
@[simp] theorem endInput_cause (s : State) :
    (s.endInput).cause = s.cause := rfl
@[simp] theorem endInput_faultWord (s : State) :
    (s.endInput).faultWord = s.faultWord := rfl
@[simp] theorem endInput_faultPc (s : State) :
    (s.endInput).faultPc = s.faultPc := rfl
@[simp] theorem endInput_output (s : State) :
    (s.endInput).output = s.output := rfl
@[simp] theorem endInput_waiting (s : State) :
    (s.endInput).waiting = s.waiting := rfl

/-! ### `readyToStep` -/

@[simp] theorem readyToStep_params (s : State) :
    (s.readyToStep).params = s.params := rfl
@[simp] theorem readyToStep_regs (s : State) :
    (s.readyToStep).regs = s.regs := rfl
@[simp] theorem readyToStep_ip (s : State) :
    (s.readyToStep).ip = s.ip := rfl
@[simp] theorem readyToStep_stack (s : State) :
    (s.readyToStep).stack = s.stack := rfl
@[simp] theorem readyToStep_mem (s : State) :
    (s.readyToStep).mem = s.mem := rfl
@[simp] theorem readyToStep_runState (s : State) :
    (s.readyToStep).runState = .running := rfl
@[simp] theorem readyToStep_cause (s : State) :
    (s.readyToStep).cause = .none := rfl
@[simp] theorem readyToStep_faultWord (s : State) :
    (s.readyToStep).faultWord = s.faultWord := rfl
@[simp] theorem readyToStep_faultPc (s : State) :
    (s.readyToStep).faultPc = s.faultPc := rfl
@[simp] theorem readyToStep_input (s : State) :
    (s.readyToStep).input = s.input := rfl
@[simp] theorem readyToStep_output (s : State) :
    (s.readyToStep).output = s.output := rfl
@[simp] theorem readyToStep_waiting (s : State) :
    (s.readyToStep).waiting = none := rfl

/-! ### `withStack` -/

@[simp] theorem withStack_params (s : State) (st : List Word15) :
    (s.withStack st).params = s.params := rfl
@[simp] theorem withStack_regs (s : State) (st : List Word15) :
    (s.withStack st).regs = s.regs := rfl
@[simp] theorem withStack_ip (s : State) (st : List Word15) :
    (s.withStack st).ip = s.ip := rfl
@[simp] theorem withStack_stack (s : State) (st : List Word15) :
    (s.withStack st).stack = st := rfl
@[simp] theorem withStack_mem (s : State) (st : List Word15) :
    (s.withStack st).mem = s.mem := rfl
@[simp] theorem withStack_runState (s : State) (st : List Word15) :
    (s.withStack st).runState = s.runState := rfl
@[simp] theorem withStack_cause (s : State) (st : List Word15) :
    (s.withStack st).cause = s.cause := rfl
@[simp] theorem withStack_faultWord (s : State) (st : List Word15) :
    (s.withStack st).faultWord = s.faultWord := rfl
@[simp] theorem withStack_faultPc (s : State) (st : List Word15) :
    (s.withStack st).faultPc = s.faultPc := rfl
@[simp] theorem withStack_input (s : State) (st : List Word15) :
    (s.withStack st).input = s.input := rfl
@[simp] theorem withStack_output (s : State) (st : List Word15) :
    (s.withStack st).output = s.output := rfl
@[simp] theorem withStack_waiting (s : State) (st : List Word15) :
    (s.withStack st).waiting = s.waiting := rfl

/-! ### `withIp` -/

@[simp] theorem withIp_params (s : State) (t : Word15) :
    (s.withIp t).params = s.params := rfl
@[simp] theorem withIp_regs (s : State) (t : Word15) :
    (s.withIp t).regs = s.regs := rfl
@[simp] theorem withIp_ip (s : State) (t : Word15) :
    (s.withIp t).ip = t := rfl
@[simp] theorem withIp_stack (s : State) (t : Word15) :
    (s.withIp t).stack = s.stack := rfl
@[simp] theorem withIp_mem (s : State) (t : Word15) :
    (s.withIp t).mem = s.mem := rfl
@[simp] theorem withIp_runState (s : State) (t : Word15) :
    (s.withIp t).runState = s.runState := rfl
@[simp] theorem withIp_cause (s : State) (t : Word15) :
    (s.withIp t).cause = s.cause := rfl
@[simp] theorem withIp_faultWord (s : State) (t : Word15) :
    (s.withIp t).faultWord = s.faultWord := rfl
@[simp] theorem withIp_faultPc (s : State) (t : Word15) :
    (s.withIp t).faultPc = s.faultPc := rfl
@[simp] theorem withIp_input (s : State) (t : Word15) :
    (s.withIp t).input = s.input := rfl
@[simp] theorem withIp_output (s : State) (t : Word15) :
    (s.withIp t).output = s.output := rfl
@[simp] theorem withIp_waiting (s : State) (t : Word15) :
    (s.withIp t).waiting = s.waiting := rfl

/-! ### `withHalted` -/

@[simp] theorem withHalted_params (s : State) :
    (s.withHalted).params = s.params := rfl
@[simp] theorem withHalted_regs (s : State) :
    (s.withHalted).regs = s.regs := rfl
@[simp] theorem withHalted_ip (s : State) :
    (s.withHalted).ip = s.ip := rfl
@[simp] theorem withHalted_stack (s : State) :
    (s.withHalted).stack = s.stack := rfl
@[simp] theorem withHalted_mem (s : State) :
    (s.withHalted).mem = s.mem := rfl
@[simp] theorem withHalted_runState (s : State) :
    (s.withHalted).runState = .halted := rfl
@[simp] theorem withHalted_cause (s : State) :
    (s.withHalted).cause = s.cause := rfl
@[simp] theorem withHalted_faultWord (s : State) :
    (s.withHalted).faultWord = s.faultWord := rfl
@[simp] theorem withHalted_faultPc (s : State) :
    (s.withHalted).faultPc = s.faultPc := rfl
@[simp] theorem withHalted_input (s : State) :
    (s.withHalted).input = s.input := rfl
@[simp] theorem withHalted_output (s : State) :
    (s.withHalted).output = s.output := rfl
@[simp] theorem withHalted_waiting (s : State) :
    (s.withHalted).waiting = s.waiting := rfl

/-! ### `withOutput` -/

@[simp] theorem withOutput_params (s : State) (v : Word15) :
    (s.withOutput v).params = s.params := rfl
@[simp] theorem withOutput_regs (s : State) (v : Word15) :
    (s.withOutput v).regs = s.regs := rfl
@[simp] theorem withOutput_ip (s : State) (v : Word15) :
    (s.withOutput v).ip = s.ip := rfl
@[simp] theorem withOutput_stack (s : State) (v : Word15) :
    (s.withOutput v).stack = s.stack := rfl
@[simp] theorem withOutput_mem (s : State) (v : Word15) :
    (s.withOutput v).mem = s.mem := rfl
@[simp] theorem withOutput_runState (s : State) (v : Word15) :
    (s.withOutput v).runState = s.runState := rfl
@[simp] theorem withOutput_cause (s : State) (v : Word15) :
    (s.withOutput v).cause = s.cause := rfl
@[simp] theorem withOutput_faultWord (s : State) (v : Word15) :
    (s.withOutput v).faultWord = s.faultWord := rfl
@[simp] theorem withOutput_faultPc (s : State) (v : Word15) :
    (s.withOutput v).faultPc = s.faultPc := rfl
@[simp] theorem withOutput_input (s : State) (v : Word15) :
    (s.withOutput v).input = s.input := rfl
@[simp] theorem withOutput_output (s : State) (v : Word15) :
    (s.withOutput v).output = s.output ++ [v] := rfl
@[simp] theorem withOutput_waiting (s : State) (v : Word15) :
    (s.withOutput v).waiting = s.waiting := rfl

/-! ### `answered` -/

@[simp] theorem answered_params (s : State) (rest : InputPort) :
    (s.answered rest).params = s.params := rfl
@[simp] theorem answered_regs (s : State) (rest : InputPort) :
    (s.answered rest).regs = s.regs := rfl
@[simp] theorem answered_ip (s : State) (rest : InputPort) :
    (s.answered rest).ip = s.ip := rfl
@[simp] theorem answered_stack (s : State) (rest : InputPort) :
    (s.answered rest).stack = s.stack := rfl
@[simp] theorem answered_mem (s : State) (rest : InputPort) :
    (s.answered rest).mem = s.mem := rfl
@[simp] theorem answered_runState (s : State) (rest : InputPort) :
    (s.answered rest).runState = s.runState := rfl
@[simp] theorem answered_cause (s : State) (rest : InputPort) :
    (s.answered rest).cause = s.cause := rfl
@[simp] theorem answered_faultWord (s : State) (rest : InputPort) :
    (s.answered rest).faultWord = s.faultWord := rfl
@[simp] theorem answered_faultPc (s : State) (rest : InputPort) :
    (s.answered rest).faultPc = s.faultPc := rfl
@[simp] theorem answered_input (s : State) (rest : InputPort) :
    (s.answered rest).input = rest := rfl
@[simp] theorem answered_output (s : State) (rest : InputPort) :
    (s.answered rest).output = s.output := rfl
@[simp] theorem answered_waiting (s : State) (rest : InputPort) :
    (s.answered rest).waiting = none := rfl

/-! ### `waitAt` -/

@[simp] theorem waitAt_params (s : State) (p : Word15) (a : Word16) :
    (s.waitAt p a).params = s.params := rfl
@[simp] theorem waitAt_regs (s : State) (p : Word15) (a : Word16) :
    (s.waitAt p a).regs = s.regs := rfl
@[simp] theorem waitAt_ip (s : State) (p : Word15) (a : Word16) :
    (s.waitAt p a).ip = s.ip := rfl
@[simp] theorem waitAt_stack (s : State) (p : Word15) (a : Word16) :
    (s.waitAt p a).stack = s.stack := rfl
@[simp] theorem waitAt_mem (s : State) (p : Word15) (a : Word16) :
    (s.waitAt p a).mem = s.mem := rfl
@[simp] theorem waitAt_runState (s : State) (p : Word15) (a : Word16) :
    (s.waitAt p a).runState = s.runState := rfl
@[simp] theorem waitAt_cause (s : State) (p : Word15) (a : Word16) :
    (s.waitAt p a).cause = s.cause := rfl
@[simp] theorem waitAt_faultWord (s : State) (p : Word15) (a : Word16) :
    (s.waitAt p a).faultWord = s.faultWord := rfl
@[simp] theorem waitAt_faultPc (s : State) (p : Word15) (a : Word16) :
    (s.waitAt p a).faultPc = s.faultPc := rfl
@[simp] theorem waitAt_input (s : State) (p : Word15) (a : Word16) :
    (s.waitAt p a).input = s.input := rfl
@[simp] theorem waitAt_output (s : State) (p : Word15) (a : Word16) :
    (s.waitAt p a).output = s.output := rfl
@[simp] theorem waitAt_waiting (s : State) (p : Word15) (a : Word16) :
    (s.waitAt p a).waiting = some { addr := p, dest := a } := rfl

/-! ### Registers and cells under the updates -/

/-- Reading any register after writing one. -/
theorem RegFile.get_set (r : RegFile) (i j : Fin 8) (v : Word15) :
    (r.set i v).get j = if i = j then v else r.get j := by
  revert i j; intro i j
  fin_cases i <;> fin_cases j <;> rfl

/-- Reading register `j` after register `i` was written. -/
@[simp] theorem reg_setReg (s : State) (i j : Fin 8) (v : Word15) :
    (s.setReg i v).reg j = if i = j then v else s.reg j :=
  RegFile.get_set s.regs i j v

@[simp] theorem reg_advance (s : State) (n : Nat) (i : Fin 8) : (s.advance n).reg i = s.reg i := rfl
@[simp] theorem cell_advance (s : State) (n : Nat) (x : Word15) : (s.advance n).cell x = s.cell x := rfl
@[simp] theorem reg_setCell (s : State) (x : Word15) (v : Word16) (i : Fin 8) :
    (s.setCell x v).reg i = s.reg i := rfl
@[simp] theorem cell_setReg (s : State) (i : Fin 8) (v : Word15) (x : Word15) :
    (s.setReg i v).cell x = s.cell x := rfl
@[simp] theorem reg_enterError (p : Word15) (e : Raise) (s : State) (i : Fin 8) :
    (enterError p e s).reg i = s.reg i := rfl
@[simp] theorem cell_enterError (p : Word15) (e : Raise) (s : State) (x : Word15) :
    (enterError p e s).cell x = s.cell x := rfl

@[simp] theorem reg_answered (s : State) (rest : InputPort) (i : Fin 8) :
    (s.answered rest).reg i = s.reg i := rfl
@[simp] theorem cell_answered (s : State) (rest : InputPort) (x : Word15) :
    (s.answered rest).cell x = s.cell x := rfl

@[simp] theorem reg_withStack (s : State) (st : List Word15) (i : Fin 8) :
    (s.withStack st).reg i = s.reg i := rfl
@[simp] theorem cell_withStack (s : State) (st : List Word15) (x : Word15) :
    (s.withStack st).cell x = s.cell x := rfl
@[simp] theorem reg_withIp (s : State) (t : Word15) (i : Fin 8) :
    (s.withIp t).reg i = s.reg i := rfl
@[simp] theorem cell_withIp (s : State) (t : Word15) (x : Word15) :
    (s.withIp t).cell x = s.cell x := rfl
@[simp] theorem reg_withHalted (s : State) (i : Fin 8) :
    (s.withHalted).reg i = s.reg i := rfl
@[simp] theorem cell_withHalted (s : State) (x : Word15) :
    (s.withHalted).cell x = s.cell x := rfl
@[simp] theorem reg_withOutput (s : State) (v : Word15) (i : Fin 8) :
    (s.withOutput v).reg i = s.reg i := rfl
@[simp] theorem cell_withOutput (s : State) (v : Word15) (x : Word15) :
    (s.withOutput v).cell x = s.cell x := rfl
@[simp] theorem reg_waitAt (s : State) (p : Word15) (a : Word16) (i : Fin 8) :
    (s.waitAt p a).reg i = s.reg i := rfl
@[simp] theorem cell_waitAt (s : State) (p : Word15) (a : Word16) (x : Word15) :
    (s.waitAt p a).cell x = s.cell x := rfl

/-- A register file is its eight reads. -/
theorem RegFile.ext_get {r r' : RegFile} (h : ∀ i, r.get i = r'.get i) : r = r' := by
  cases r; cases r'
  have h0 := h 0; have h1 := h 1; have h2 := h 2; have h3 := h 3
  have h4 := h 4; have h5 := h 5; have h6 := h 6; have h7 := h 7
  simp only [RegFile.get] at h0 h1 h2 h3 h4 h5 h6 h7
  simp [*]

end Sys2Proof.Machine
end

