-- ==== Sys2Proof/Laws/Memory.lean ====
section
/-! SUPPORT. Memory: reading after writing, for bytes and for cells; every operation keeps the canonical
form; equal cells make equal memories. -/

namespace Sys2Proof.Machine

/-! ### Bytes -/

@[simp] theorem Memory.byteAt_nil (a : Nat) : Memory.byteAt [] a = unlistedByte := rfl

theorem Memory.byteAt_dropByte (m : Memory) (a b : Nat) :
    Memory.byteAt (Memory.dropByte m a) b = if b = a then unlistedByte else Memory.byteAt m b := by
  induction m with
  | nil => simp [Memory.dropByte]
  | cons c rest ih =>
    obtain ⟨k, v⟩ := c
    unfold Memory.dropByte at ih ⊢
    by_cases hk : k = a
    · subst hk
      by_cases hb : b = k
      · simpa [hb] using ih
      · simpa [hb, Memory.byteAt, Ne.symm hb] using ih
    · by_cases hb : b = a
      · subst hb
        simpa [hk, Memory.byteAt] using ih
      · by_cases hkb : k = b
        · simp [hb, Memory.byteAt, hkb]
        · simpa [hk, hb, Memory.byteAt, hkb] using ih

theorem Memory.byteAt_putByte (m : Memory) (a b : Nat) (v : Byte)
    (h : Memory.byteAt m a = unlistedByte ∧ ∀ c ∈ m, c.1 ≠ a) :
    Memory.byteAt (Memory.putByte m a v) b = if b = a then v else Memory.byteAt m b := by
  induction m with
  | nil =>
    by_cases hb : b = a
    · simp [Memory.putByte, Memory.byteAt, hb]
    · simp [Memory.putByte, Memory.byteAt, hb, Ne.symm hb]
  | cons c rest ih =>
    obtain ⟨k, w⟩ := c
    have hka : k ≠ a := h.2 (k, w) (by simp)
    have ih := ih ⟨by simpa [Memory.byteAt, hka] using h.1, fun c hc => h.2 c (by simp [hc])⟩
    by_cases hlt : a < k
    · by_cases hb : b = a
      · simp [Memory.putByte, hlt, Memory.byteAt, hb]
      · simp [Memory.putByte, hlt, Memory.byteAt, hb, Ne.symm hb]
    · by_cases hkb : k = b
      · subst hkb
        simp [Memory.putByte, hlt, Memory.byteAt, hka]
      · simpa [Memory.putByte, hlt, Memory.byteAt, hkb] using ih

theorem Memory.byteAt_of_not_listed (m : Memory) (a : Nat) (h : ∀ c ∈ m, c.1 ≠ a) :
    Memory.byteAt m a = unlistedByte := by
  induction m with
  | nil => rfl
  | cons c rest ih =>
    simp only [Memory.byteAt, if_neg (h c (by simp))]
    exact ih fun c hc => h c (by simp [hc])

/-- Reading any byte after writing one, in any memory. -/
theorem Memory.byteAt_setByte (m : Memory) (a b : Nat) (v : Byte) :
    Memory.byteAt (Memory.setByte m a v) b = if b = a then v else Memory.byteAt m b := by
  unfold Memory.setByte
  split
  · next hv => rw [Memory.byteAt_dropByte, hv]
  · have hn : ∀ c ∈ Memory.dropByte m a, c.1 ≠ a := by simp [Memory.dropByte]
    rw [Memory.byteAt_putByte _ _ _ _ ⟨Memory.byteAt_of_not_listed _ _ hn, hn⟩,
      Memory.byteAt_dropByte]
    split <;> rfl

/-! ### Cells -/

/-- Two bytes make the number the image packing says: `B[2k] + 256 * B[2k+1]` (R55). -/
theorem wordOfBytes_toNat (lo hi : Byte) : (wordOfBytes lo hi).toNat = lo.toNat + 256 * hi.toNat := by
  have h := lo.isLt
  have e : (wordOfBytes lo hi).toNat = hi.toNat <<< 8 ||| lo.toNat := BitVec.toNat_append hi lo
  rw [e, Nat.shiftLeft_eq, Nat.mul_comm, ← Nat.two_pow_add_eq_or_of_lt h]
  omega

theorem lowByte_toNat (w : Word16) : (lowByte w).toNat = w.toNat % 256 := by
  simp [lowByte]

theorem highByte_toNat (w : Word16) : (highByte w).toNat = w.toNat / 256 := by
  have h := w.isLt
  simp only [highByte, BitVec.toNat_setWidth, BitVec.toNat_ushiftRight, Nat.shiftRight_eq_div_pow]
  omega

@[simp] theorem lowByte_wordOfBytes (lo hi : Byte) : lowByte (wordOfBytes lo hi) = lo := by
  apply BitVec.eq_of_toNat_eq
  have := lo.isLt
  rw [lowByte_toNat, wordOfBytes_toNat]
  omega

@[simp] theorem highByte_wordOfBytes (lo hi : Byte) : highByte (wordOfBytes lo hi) = hi := by
  apply BitVec.eq_of_toNat_eq
  have := lo.isLt
  rw [highByte_toNat, wordOfBytes_toNat]
  omega

@[simp] theorem wordOfBytes_low_high (w : Word16) : wordOfBytes (lowByte w) (highByte w) = w := by
  apply BitVec.eq_of_toNat_eq
  rw [wordOfBytes_toNat, lowByte_toNat, highByte_toNat]
  omega

/-- Reading any cell after writing one, in any memory (R53, R54). -/
theorem Memory.cell_setCell (m : Memory) (x y : Word15) (v : Word16) :
    Memory.cell (Memory.setCell m x v) y = if y = x then v else Memory.cell m y := by
  unfold Memory.cell Memory.setCell
  simp only [Memory.byteAt_setByte]
  by_cases h : y = x
  · subst h; simp
  · have hn : y.toNat ≠ x.toNat := fun e => h (BitVec.eq_of_toNat_eq e)
    have h1 : ¬ (2 * y.toNat = 2 * x.toNat + 1) := by omega
    have h2 : ¬ (2 * y.toNat = 2 * x.toNat) := by omega
    have h4 : ¬ (2 * y.toNat + 1 = 2 * x.toNat) := by omega
    simp [h, h1, h2, h4]

/-- Reading cell `y` of a state after cell `x` was written. -/
@[simp] theorem cell_setCell (s : State) (x y : Word15) (v : Word16) :
    (s.setCell x v).cell y = if y = x then v else s.cell y :=
  Memory.cell_setCell s.mem x y v

/-! ### The canonical form -/

theorem Memory.wf_nil : Memory.wf [] := by simp [Memory.wf]

theorem Memory.wf_dropByte {m : Memory} (h : Memory.wf m) (a : Nat) : Memory.wf (Memory.dropByte m a) :=
  ⟨h.1.filter _, fun c hc => h.2 c (List.mem_of_mem_filter hc)⟩

theorem Memory.mem_putByte {m : Memory} {a : Nat} {v : Byte} {c : Host.Cell} :
    c ∈ Memory.putByte m a v ↔ c = (a, v) ∨ c ∈ m := by
  induction m with
  | nil => simp [Memory.putByte]
  | cons d rest ih =>
    by_cases h : a < d.1
    · simp [Memory.putByte, h]
    · simp only [Memory.putByte, h, if_false, List.mem_cons, ih]
      tauto

theorem Memory.wf_putByte {m : Memory} (h : Memory.wf m) {a : Nat} {v : Byte} (ha : a < 65536)
    (hv : v ≠ unlistedByte) (hn : ∀ c ∈ m, c.1 ≠ a) : Memory.wf (Memory.putByte m a v) := by
  refine ⟨?_, fun c hc => ?_⟩
  · replace h := h.1
    induction m with
    | nil => simp [Memory.putByte]
    | cons d rest ih =>
      have hd := List.pairwise_cons.1 h
      have hda : d.1 ≠ a := hn d (by simp)
      by_cases hlt : a < d.1
      · simp only [Memory.putByte, hlt, if_true, List.pairwise_cons]
        refine ⟨fun c hc => ?_, hd⟩
        rcases List.mem_cons.1 hc with rfl | hc
        · exact hlt
        · exact Nat.lt_trans hlt (hd.1 c hc)
      · simp only [Memory.putByte, hlt, if_false, List.pairwise_cons]
        refine ⟨fun c hc => ?_, ih (fun c hc => hn c (by simp [hc])) hd.2⟩
        rcases Memory.mem_putByte.1 hc with rfl | hc
        · show d.1 < a
          omega
        · exact hd.1 c hc
  · rcases Memory.mem_putByte.1 hc with rfl | hc
    · exact ⟨hv, ha⟩
    · exact h.2 c hc

theorem Memory.wf_setByte {m : Memory} (h : Memory.wf m) {a : Nat} (ha : a < 65536) (v : Byte) :
    Memory.wf (Memory.setByte m a v) := by
  unfold Memory.setByte
  split
  · exact Memory.wf_dropByte h a
  · next hv => exact Memory.wf_putByte (Memory.wf_dropByte h a) ha hv (by simp [Memory.dropByte])

/-- A cell write keeps the canonical form. -/
theorem Memory.wf_setCell {m : Memory} (h : Memory.wf m) (x : Word15) (v : Word16) :
    Memory.wf (Memory.setCell m x v) := by
  have := x.isLt
  exact Memory.wf_setByte (Memory.wf_setByte h (by omega) _) (by omega) _

/-- Writing a run of words keeps the canonical form. -/
theorem wf_setCells (ws : List Word16) : ∀ (s : State) (x : Word15), Memory.wf s.mem →
    Memory.wf (s.setCells x ws).mem := by
  induction ws with
  | nil => exact fun s x h => h
  | cons w rest ih => exact fun s x h => ih _ _ (Memory.wf_setCell h x w)

theorem memoryOfBytes_key {k : Nat} {bs : List Byte} {c : Host.Cell} (h : c ∈ memoryOfBytes k bs) :
    k ≤ c.1 ∧ c.1 < k + bs.length ∧ c.2 ≠ unlistedByte := by
  induction bs generalizing k with
  | nil => simp [memoryOfBytes] at h
  | cons b rest ih =>
    simp only [memoryOfBytes] at h
    split at h
    · have := ih h
      simp only [List.length_cons]
      exact ⟨by omega, by omega, this.2.2⟩
    · next hb =>
      rcases List.mem_cons.1 h with rfl | h
      · simp [hb]
      · have := ih h
        simp only [List.length_cons]
        exact ⟨by omega, by omega, this.2.2⟩

/-- The loader's fill is in canonical form. -/
theorem wf_fillMemory {image : List Byte} (h : image.length ≤ 65536) : Memory.wf (fillMemory image) := by
  refine ⟨?_, fun c hc => ?_⟩
  · have : ∀ (k : Nat) (bs : List Byte), (memoryOfBytes k bs).Pairwise (fun x y => x.1 < y.1) := by
      intro k bs
      induction bs generalizing k with
      | nil => simp [memoryOfBytes]
      | cons b rest ih =>
        simp only [memoryOfBytes]
        split
        · exact ih _
        · exact List.pairwise_cons.2 ⟨fun c hc => by have := memoryOfBytes_key hc; simp; omega, ih _⟩
    exact this 0 image
  · have := memoryOfBytes_key hc
    exact ⟨this.2.2, by omega⟩

/-- The loader's patches keep the canonical form. -/
theorem wf_applyPatches (patches : List Patch) : ∀ (m : Memory), Memory.wf m →
    Memory.wf (applyPatches m patches) := by
  induction patches with
  | nil => exact fun m h => h
  | cons p rest ih => exact fun m h => ih _ (Memory.wf_setCell h _ _)

/-! ### Equal cells -/

theorem Memory.byteAt_lt {m : Memory} {a : Nat}
    (ha : ∀ c ∈ m, a < c.1) : Memory.byteAt m a = unlistedByte :=
  Memory.byteAt_of_not_listed m a fun c hc => Nat.ne_of_gt (ha c hc)

/-- Two canonical memories with the same bytes are the same list. -/
theorem Memory.eq_of_byteAt {m m' : Memory} (h : Memory.wf m) (h' : Memory.wf m')
    (hb : ∀ a, Memory.byteAt m a = Memory.byteAt m' a) : m = m' := by
  induction m generalizing m' with
  | nil =>
    cases m' with
    | nil => rfl
    | cons d rest =>
      have := hb d.1
      simp [Memory.byteAt] at this
      exact absurd this.symm (h'.2 d (by simp)).1
  | cons c rest ih =>
    cases m' with
    | nil =>
      have := hb c.1
      simp [Memory.byteAt] at this
      exact absurd this (h.2 c (by simp)).1
    | cons d rest' =>
      obtain ⟨k, v⟩ := c
      obtain ⟨k', v'⟩ := d
      have hc := List.pairwise_cons.1 h.1
      have hd := List.pairwise_cons.1 h'.1
      have hv := (h.2 (k, v) (by simp)).1
      have hv' := (h'.2 (k', v') (by simp)).1
      have hk : k = k' := by
        rcases Nat.lt_trichotomy k k' with hlt | heq | hgt
        · have := hb k
          rw [Memory.byteAt_lt (m := (k', v') :: rest') (a := k) (fun e he => ?_)] at this
          · simp [Memory.byteAt] at this
            exact absurd this hv
          · rcases List.mem_cons.1 he with rfl | he
            · exact hlt
            · exact Nat.lt_trans hlt (hd.1 e he)
        · exact heq
        · have := hb k'
          rw [Memory.byteAt_lt (a := k') (fun e he => ?_)] at this
          · simp [Memory.byteAt] at this
            exact absurd this.symm hv'
          · rcases List.mem_cons.1 he with rfl | he
            · exact hgt
            · exact Nat.lt_trans hgt (hc.1 e he)
      subst hk
      have hvv : v = v' := by simpa [Memory.byteAt] using hb k
      subst hvv
      have htl : rest = rest' := by
        refine ih ⟨hc.2, fun e he => h.2 e (by simp [he])⟩ ⟨hd.2, fun e he => h'.2 e (by simp [he])⟩
          fun a => ?_
        by_cases ha : k = a
        · subst ha
          rw [Memory.byteAt_lt hc.1, Memory.byteAt_lt hd.1]
        · simpa [Memory.byteAt, ha] using hb a
      rw [htl]

/-- Two canonical memories with the same cells are the same list. -/
theorem Memory.eq_of_cell {m m' : Memory} (h : Memory.wf m) (h' : Memory.wf m')
    (hx : ∀ x, Memory.cell m x = Memory.cell m' x) : m = m' := by
  refine Memory.eq_of_byteAt h h' fun a => ?_
  by_cases ha : a < 65536
  · have hc := hx (BitVec.ofNat 15 (a / 2))
    have hn : (BitVec.ofNat 15 (a / 2)).toNat = a / 2 := by
      simp only [BitVec.toNat_ofNat]; omega
    have hlo := congrArg lowByte hc
    have hhi := congrArg highByte hc
    simp only [Memory.cell, hn, lowByte_wordOfBytes, highByte_wordOfBytes] at hlo hhi
    rcases Nat.mod_two_eq_zero_or_one a with h2 | h2
    · rwa [show 2 * (a / 2) = a by omega] at hlo
    · rwa [show 2 * (a / 2) + 1 = a by omega] at hhi
  · rw [Memory.byteAt_of_not_listed m a fun c hc e => ha (e ▸ (h.2 c hc).2),
      Memory.byteAt_of_not_listed m' a fun c hc e => ha (e ▸ (h'.2 c hc).2)]

end Sys2Proof.Machine
end

