-- ==== Sys2Proof/Laws/Ops.lean ====
section
/-! SUPPORT. The shared operations: for each, what it does on every input, so that no later proof unfolds
it. -/

namespace Sys2Proof.Machine

/-! ### Rules as sequences of primitives -/

@[simp] theorem Exec.bind_apply {α β : Type} (x : Exec α) (f : α → Exec β) (s : State) :
    (x >>= f) s = match x s with
      | .ok a t => f a t
      | .error e t => .error e t := by
  show EStateM.bind x f s = _
  unfold EStateM.bind
  cases x s <;> rfl

@[simp] theorem Exec.pure_apply {α : Type} (a : α) (s : State) :
    (pure a : Exec α) s = .ok a s := rfl

@[simp] theorem Exec.ite_apply {α : Type} (c : Prop) [Decidable c] (x y : Exec α) (s : State) :
    (if c then x else y) s = if c then x s else y s := by
  split <;> rfl

@[simp] theorem raise_apply {α : Type} (cause : Cause) (word : Word16) (s : State) :
    (raise cause word : Exec α) s = .error { cause := cause, word := word } s := rfl

@[simp] theorem currentIp_apply (s : State) : currentIp s = .ok s.ip s := rfl
@[simp] theorem jump_apply (t : Word15) (s : State) : jump t s = .ok () (s.withIp t) := rfl
@[simp] theorem halt_apply (s : State) : halt s = .ok () s.withHalted := rfl
@[simp] theorem emit_apply (v : Word15) (s : State) :
    emit v s = .ok () (s.withOutput v) := rfl
@[simp] theorem writeReg_apply (i : Fin 8) (v : Word15) (s : State) :
    writeReg i v s = .ok () (s.setReg i v) := rfl

@[simp] theorem endStep_ok (p : Word15) (t : State) : endStep p (.ok () t) = .next t := rfl
@[simp] theorem endStep_error (p : Word15) (e : Raise) (t : State) :
    endStep p (.error e t) = .next (enterError p e t) := rfl

/-- The end of a step always answers a next state. -/
theorem endStep_next (p : Word15) (r : EStateM.Result Raise State Unit) : ∃ t, endStep p r = .next t := by
  cases r
  · exact ⟨_, rfl⟩
  · exact ⟨_, rfl⟩

/-- What an instruction of `n` words can answer: the state its rule left, or the Error state of what it
raised. -/
theorem runInstr_cases {n : Nat} {rule : Exec Unit} {s t : State} (h : runInstr n rule s = .next t) :
    rule (s.advance n) = .ok () t ∨
      ∃ e u, rule (s.advance n) = .error e u ∧ t = enterError s.ip e u := by
  unfold runInstr at h
  cases hr : rule (s.advance n) with
  | ok a u => rw [hr] at h; cases h; exact .inl rfl
  | error e u => rw [hr] at h; cases h; exact .inr ⟨e, u, rfl, rfl⟩

/-- The advance is modulo 32768 (R114). -/
theorem advance_eq (s : State) (n : Nat) : s.advance n = { s with ip := ipAfter s n } := by
  have : s.ip + BitVec.ofNat 15 n = ipAfter s n := by
    apply BitVec.eq_of_toNat_eq
    simp [ipAfter, BitVec.toNat_add, BitVec.toNat_ofNat]
  unfold State.advance
  rw [this]

theorem advance_ip_eq (s : State) (n : Nat) : (s.advance n).ip = ipAfter s n := by
  rw [advance_eq]

/-- Entering Error is the four settings of R119. -/
theorem enterError_eq (p : Word15) (e : Raise) (s : State) :
    enterError p e s = errorState p e.cause e.word s := rfl

/-! ### Operand words -/

theorem classify_literal {w : Word16} (h : w.toNat ≤ 32767) : classify w = .literal (w.setWidth 15) := by
  simp [classify, regOperandBase, show w.toNat < 32768 by omega]

theorem classify_register {w : Word16} {i : Fin 8} (h : w.toNat = 32768 + i.val) :
    classify w = .register i := by
  have hi := i.isLt
  have h1 : ¬ w.toNat < 32768 := by omega
  have h2 : w.toNat < 32768 + 8 := by omega
  have h3 : Fin.ofNat 8 (w.toNat - 32768) = i := by
    apply Fin.ext
    simp only [Fin.val_ofNat]
    omega
  simp only [classify, regOperandBase, h1, h2, if_false, if_true, h3]

theorem classify_invalid {w : Word16} (h : InvalidWord w) : classify w = .invalid := by
  unfold InvalidWord at h
  simp [classify, regOperandBase, show ¬ w.toNat < 32768 by omega, show ¬ w.toNat < 32776 by omega]

/-- Every operand word is a literal, a register or invalid (R82). -/
theorem operandWord_cases (w : Word16) :
    (∃ x : Word15, w.toNat = x.toNat) ∨ (∃ i : Fin 8, w.toNat = 32768 + i.val) ∨ InvalidWord w := by
  rcases Nat.lt_or_ge w.toNat 32768 with h | h
  · exact .inl ⟨w.setWidth 15, by simp; omega⟩
  · rcases Nat.lt_or_ge w.toNat 32776 with h' | h'
    · exact .inr (.inl ⟨⟨w.toNat - 32768, by omega⟩, by simp; omega⟩)
    · exact .inr (.inr h')

theorem setWidth_of_toNat_eq {w : Word16} {x : Word15} (h : w.toNat = x.toNat) : w.setWidth 15 = x := by
  apply BitVec.eq_of_toNat_eq
  have := x.isLt
  simp only [BitVec.toNat_setWidth]
  omega

/-- A word that denotes a value is not invalid (R82). -/
theorem Denotes.not_invalid {s : State} {w : Word16} {x : Word15} (h : Denotes s w x) : ¬ InvalidWord w := by
  unfold InvalidWord
  rcases h with ⟨h, -⟩ | ⟨i, h, -⟩
  · omega
  · omega

/-- A source word denotes one value. -/
theorem Denotes.unique {s : State} {w : Word16} {x y : Word15} (hx : Denotes s w x) (hy : Denotes s w y) :
    x = y := by
  rcases hx with ⟨h, e⟩ | ⟨i, h, e⟩ <;> rcases hy with ⟨h', e'⟩ | ⟨j, h', e'⟩
  · exact BitVec.eq_of_toNat_eq (e.trans e'.symm)
  · omega
  · omega
  · have : i = j := Fin.ext (by omega)
    rw [e, e', this]

/-- `src` of a word that denotes a value (R83). -/
theorem src_of_denotes {s : State} {w : Word16} {x : Word15} (h : Denotes s w x) : src w s = .ok x s := by
  rcases h with ⟨h, e⟩ | ⟨i, h, e⟩
  · simp only [src, classify_literal h, setWidth_of_toNat_eq e.symm]
  · simp only [src, classify_register h, e]

/-- `src` of an invalid word (R83). -/
theorem src_of_invalid {w : Word16} (h : InvalidWord w) (s : State) :
    src w s = .error { cause := .invalidOperand, word := w } s := by
  simp only [src, classify_invalid h]

/-- What `src` can do: give the value the word denotes, or raise INVALID_OPERAND; never change the
state. -/
theorem src_cases (w : Word16) (s : State) :
    (∃ x, Denotes s w x ∧ src w s = .ok x s) ∨
      (InvalidWord w ∧ src w s = .error { cause := .invalidOperand, word := w } s) := by
  rcases operandWord_cases w with ⟨x, h⟩ | ⟨i, h⟩ | h
  · have hd : Denotes s w x := .inl ⟨by have := x.isLt; omega, h.symm⟩
    exact .inl ⟨x, hd, src_of_denotes hd⟩
  · have hd : Denotes s w (s.reg i) := .inr ⟨i, h, rfl⟩
    exact .inl ⟨_, hd, src_of_denotes hd⟩
  · exact .inr ⟨h, src_of_invalid h s⟩

/-- What an operand denotes does not depend on `ip`, so the advance does not change it (R83, R114). -/
@[simp] theorem denotes_advance (s : State) (n : Nat) (w : Word16) (x : Word15) :
    Denotes (s.advance n) w x ↔ Denotes s w x := Iff.rfl

/-! ### Destinations and the write-back -/

theorem dst_of_literal {w : Word16} {x : Word15} (h : w.toNat = x.toNat) (s : State) :
    dst w s = .ok (.mem x) s := by
  have := x.isLt
  simp only [dst, classify_literal (show w.toNat ≤ 32767 by omega), setWidth_of_toNat_eq h]

theorem dst_of_register {w : Word16} {i : Fin 8} (h : w.toNat = 32768 + i.val) (s : State) :
    dst w s = .ok (.reg i) s := by
  simp only [dst, classify_register h]

theorem dst_of_invalid {w : Word16} (h : InvalidWord w) (s : State) :
    dst w s = .error { cause := .invalidOperand, word := w } s := by
  simp only [dst, classify_invalid h]

theorem storeTo_of_invalid {a : Word16} (h : InvalidWord a) (v : Word16) (s : State) :
    storeTo a v s = .error { cause := .invalidOperand, word := a } s := by
  simp [storeTo, dst_of_invalid h]

theorem storeTo_of_literal {a : Word16} {x : Word15} (h : a.toNat = x.toNat) (v : Word16) (s : State) :
    storeTo a v s = .ok () (s.setCell x v) := by
  simp [storeTo, dst_of_literal h, store]

theorem storeTo_of_register {a : Word16} {i : Fin 8} (h : a.toNat = 32768 + i.val) {v : Word16} {s : State}
    (hv : v.toNat < 32768 ∨ s.params.wideStore = .mask15) :
    storeTo a v s = .ok () (s.setReg i (v.setWidth 15)) := by
  by_cases hlt : v.toNat < 32768
  · simp [storeTo, dst_of_register h, store, hlt]
  · have hm := hv.resolve_left hlt
    simp [storeTo, dst_of_register h, store, hlt, hm]

theorem storeTo_of_wide {a : Word16} {i : Fin 8} (h : a.toNat = 32768 + i.val) {v : Word16} {s : State}
    (hv : 32767 < v.toNat) (hf : s.params.wideStore = .fault) :
    storeTo a v s = .error { cause := .wideValue, word := v } s := by
  simp [storeTo, dst_of_register h, store, show ¬ v.toNat < 32768 by omega, hf]

/-- What `storeTo` can do (R84, R118): write one cell, write one register, or raise with no effect. -/
theorem storeTo_cases (a v : Word16) (s : State) :
    (∃ x : Word15, a.toNat = x.toNat ∧ storeTo a v s = .ok () (s.setCell x v)) ∨
    (∃ i : Fin 8, a.toNat = 32768 + i.val ∧ storeTo a v s = .ok () (s.setReg i (v.setWidth 15))) ∨
    (InvalidWord a ∧ storeTo a v s = .error { cause := .invalidOperand, word := a } s) ∨
    (32767 < v.toNat ∧ storeTo a v s = .error { cause := .wideValue, word := v } s) := by
  rcases operandWord_cases a with ⟨x, h⟩ | ⟨i, h⟩ | h
  · exact .inl ⟨x, h, storeTo_of_literal h v s⟩
  · rcases Nat.lt_or_ge v.toNat 32768 with hv | hv
    · exact .inr (.inl ⟨i, h, storeTo_of_register h (.inl hv)⟩)
    · cases hw : s.params.wideStore with
      | mask15 => exact .inr (.inl ⟨i, h, storeTo_of_register h (.inr hw)⟩)
      | fault => exact .inr (.inr (.inr ⟨hv, storeTo_of_wide h hv hw⟩))
  · exact .inr (.inr (.inl ⟨h, storeTo_of_invalid h v s⟩))

@[simp] theorem widen_toNat (v : Word15) : (widen v).toNat = v.toNat := by
  have := v.isLt
  simp only [widen, BitVec.toNat_setWidth]
  omega

@[simp] theorem widen_setWidth (v : Word15) : (widen v).setWidth 15 = v :=
  setWidth_of_toNat_eq (widen_toNat v)

/-- A write through the destination word, of a value the slot can hold (R84, R118): the slot holds it and
everything else is kept. -/
theorem storeTo_stored {a v : Word16} {s : State} (ha : ¬ InvalidWord a)
    (hv : a.toNat ≤ 32767 ∨ v.toNat ≤ 32767 ∨ s.params.wideStore = .mask15) :
    ∃ t, storeTo a v s = .ok () t ∧ t = { s with regs := t.regs, mem := t.mem } ∧
      Stored s t a (if a.toNat ≤ 32767 then v.toNat else v.toNat % 32768) := by
  rcases operandWord_cases a with ⟨x, h⟩ | ⟨i, h⟩ | h
  · have hx := x.isLt
    refine ⟨_, storeTo_of_literal h v s, rfl, ?_⟩
    rw [if_pos (show a.toNat ≤ 32767 by omega)]
    refine ⟨fun j hj => by omega, fun y hy => ?_, fun _ _ => rfl, fun y hy => ?_⟩
    · have : y = x := BitVec.eq_of_toNat_eq (hy.symm.trans h)
      simp [this]
    · have : y ≠ x := fun e => hy (e ▸ h)
      simp [this]
  · have h1 : ¬ a.toNat ≤ 32767 := by omega
    have hv' : v.toNat < 32768 ∨ s.params.wideStore = .mask15 := by
      rcases hv with hv | hv | hv
      · exact absurd hv h1
      · exact .inl (by omega)
      · exact .inr hv
    refine ⟨_, storeTo_of_register h hv', rfl, ?_⟩
    rw [if_neg h1]
    refine ⟨fun j hj => ?_, fun y hy => ?_, fun j hj => ?_, fun _ _ => rfl⟩
    · have : i = j := Fin.ext (by omega)
      simp [this, BitVec.toNat_setWidth]
    · have := y.isLt
      omega
    · have : i ≠ j := fun e => hj (e ▸ h)
      simp [this]
  · exact absurd h ha

/-- The same for a value of 15 bits, which every slot holds. -/
theorem storeTo_widen_stored {a : Word16} (v : Word15) (s : State) (ha : ¬ InvalidWord a) :
    ∃ t, storeTo a (widen v) s = .ok () t ∧ t = { s with regs := t.regs, mem := t.mem } ∧
      Stored s t a v.toNat := by
  have hv := v.isLt
  obtain ⟨t, ht, heq, hst⟩ := storeTo_stored (a := a) (v := widen v) (s := s) ha
    (.inr (.inl (by rw [widen_toNat]; omega)))
  refine ⟨t, ht, heq, ?_⟩
  rw [widen_toNat, Nat.mod_eq_of_lt (by omega), ite_self] at hst
  exact hst

/-! ### Memory, the stack, the ALU, the input port -/

/-- Memory addresses that come from a resolved source are in range (R53). -/
@[simp] theorem memRead_widen (x : Word15) (s : State) : memRead (widen x) s = .ok (s.cell x) s := by
  have h : x.toNat < 32768 := x.isLt
  simp [memRead, memWords, h]

@[simp] theorem memWrite_widen (x : Word15) (v : Word16) (s : State) :
    memWrite (widen x) v s = .ok () (s.setCell x v) := by
  have h : x.toNat < 32768 := x.isLt
  simp [memWrite, memWords, h]

theorem stackFull_iff (s : State) : s.stackFull = true ↔ StackFull s := by
  unfold State.stackFull StackFull
  cases s.params.stackDepth <;> simp

theorem push_of_full {s : State} (h : StackFull s) (v : Word15) :
    push v s = .error { cause := .stackOverflow, word := widen v } s := by
  simp [push, (stackFull_iff s).2 h]

theorem push_of_room {s : State} (h : ¬ StackFull s) (v : Word15) :
    push v s = .ok () (s.withStack (v :: s.stack)) := by
  simp [push, mt (stackFull_iff s).1 h]

@[simp] theorem stackFull_advance (s : State) (n : Nat) : StackFull (s.advance n) ↔ StackFull s := Iff.rfl

theorem popTop_of_nil {s : State} (h : s.stack = []) : popTop s = .ok none s := by
  simp [popTop, h]

theorem popTop_of_cons {s : State} {v : Word15} {rest : List Word15} (h : s.stack = v :: rest) :
    popTop s = .ok (some v) (s.withStack rest) := by
  simp [popTop, h]

/-- Every ALU operation but MOD of a zero divisor has a result (R169). -/
theorem alu_cases (op : AluOp) (x y : Word15) :
    (∃ r, alu op x y = some r) ∨ (op = .mod ∧ y.toNat = 0 ∧ alu op x y = none) := by
  by_cases hy : y.toNat = 0
  · cases op <;> simp [alu, hy]
  · cases op <;> simp [alu, hy]

theorem aluResult_of_some {op : AluOp} {x y r : Word15} (h : alu op x y = some r) (c : Word16) (s : State) :
    aluResult op x y c s = .ok r s := by
  simp [aluResult, h]

theorem aluResult_of_none {op : AluOp} {x y : Word15} (h : alu op x y = none) (c : Word16) (s : State) :
    aluResult op x y c s = .error { cause := .divideByZero, word := c } s := by
  simp [aluResult, h]

/-- What the input port can answer: a character, end of input, or nothing yet (R226). -/
theorem askInput_cases (p : Word15) (a : Word16) (s : State) :
    (∃ ch rest, s.input.take = .char ch rest ∧
      askInput p a s = endStep p (deliver a ch (s.answered rest))) ∨
    (s.input.take = .endOfInput ∧
      askInput p a s = .next (enterError p { cause := .inputEnd, word := 0 } (s.answered s.input))) ∨
    (s.input.take = .noAnswer ∧ askInput p a s = .next (s.waitAt p a)) := by
  unfold askInput
  cases s.input.take with
  | char ch rest => exact .inl ⟨ch, rest, rfl, rfl⟩
  | endOfInput => exact .inr (.inl ⟨rfl, rfl⟩)
  | noAnswer => exact .inr (.inr ⟨rfl, rfl⟩)

/-- What IN's delivery of a taken character can do (R222, R223): set register 7, or store it. -/
theorem deliver_eq (a ch : Word16) (s : State) :
    deliver a ch s =
      if s.params.sentinelEnable = true ∧ ch.toNat = 36 then .ok () (s.setReg 7 25734) else storeTo a ch s := by
  have h : s.isSentinel ch = true ↔ s.params.sentinelEnable = true ∧ ch.toNat = 36 := by
    simp only [State.isSentinel, sentinelChar, Bool.and_eq_true, beq_iff_eq]
    constructor
    · rintro ⟨h1, rfl⟩; exact ⟨h1, rfl⟩
    · rintro ⟨h1, h2⟩; exact ⟨h1, BitVec.eq_of_toNat_eq h2⟩
  unfold deliver
  by_cases hs : s.isSentinel ch = true
  · rw [if_pos hs, if_pos (h.1 hs)]; rfl
  · rw [if_neg hs, if_neg (mt h.2 hs)]

end Sys2Proof.Machine
end

