-- ==== Sys2Proof/Laws/Effects.lean ====
section
/-! SUPPORT. What an instruction can do, said once: `exec_effect` gives, for every next state `exec` answers,
one of the shapes of `Effect`. Frames and invariants follow from it without unfolding a meaning. -/

namespace Sys2Proof.Machine

/-- The state an instruction has made before its last effect or its raise: the advance, and what CALL, POP
and IN do before they resolve an operand (R119, R120). -/
inductive Pre (i : Instr) (s : State) : State → Prop where
  | plain : Pre i s (s.advance i.length)
  | popped (a : Word16) (v : Word15) (rest : List Word15) (hi : i = .pop a) (hs : s.stack = v :: rest) :
      Pre i s ((s.advance i.length).withStack rest)
  | pushed (a : Word16) (hi : i = .call a) (hroom : ¬ StackFull s) :
      Pre i s ((s.advance i.length).withStack (ipAfter s 2 :: s.stack))
  | took (a ch : Word16) (rest : InputPort) (hi : i = .inp a) (hq : s.input.take = .char ch rest) :
      Pre i s ((s.advance i.length).answered rest)
  | ended (a : Word16) (hi : i = .inp a) : Pre i s ((s.advance i.length).answered s.input)

/-- What an instruction can leave. -/
inductive Effect (i : Instr) (s : State) : State → Prop where
  | raised (u : State) (e : Raise) (hp : Pre i s u) (hc : e.cause ∈ mayRaise i)
      (hw : e.cause = .invalidOperand → i.wellFormed = false) : Effect i s (enterError s.ip e u)
  | storedCell (u : State) (d : Word16) (x : Word15) (v : Word16) (hp : Pre i s u)
      (hd : destWord i = some d) (hx : d.toNat = x.toNat) (ht : isTransfer i = false) :
      Effect i s (u.setCell x v)
  | storedReg (u : State) (d : Word16) (r : Fin 8) (v : Word15) (hp : Pre i s u)
      (hd : destWord i = some d) (hr : d.toNat = 32768 + r.val) (ht : isTransfer i = false) :
      Effect i s (u.setReg r v)
  | wroteCell (a b : Word16) (x : Word15) (v : Word16) (hi : i = .wmem a b) (hx : Denotes s a x) :
      Effect i s ((s.advance i.length).setCell x v)
  | sentinel (a ch : Word16) (rest : InputPort) (hi : i = .inp a) (hq : s.input.take = .char ch rest)
      (he : s.params.sentinelEnable = true) :
      Effect i s (((s.advance i.length).answered rest).setReg 7 25734)
  | pushed (a : Word16) (v : Word15) (hi : i = .push a) (hroom : ¬ StackFull s) :
      Effect i s ((s.advance i.length).withStack (v :: s.stack))
  | quiet : Effect i s (s.advance i.length)
  | jumped (u : State) (w : Word16) (t : Word15) (hp : Pre i s u) (hi : isTransfer i = true)
      (hm : w ∈ i.operands) (hd : Denotes s w t) : Effect i s (u.withIp t)
  | returned (t : Word15) (rest : List Word15) (hi : i = .ret) (hs : s.stack = t :: rest) :
      Effect i s (((s.advance i.length).withStack rest).withIp t)
  | halted (hi : i = .hlt ∨ (i = .ret ∧ s.stack = [])) :
      Effect i s (s.advance i.length).withHalted
  | emitted (a : Word16) (v : Word15) (hi : i = .out a) :
      Effect i s ((s.advance i.length).withOutput v)
  | waited (a : Word16) (hi : i = .inp a) : Effect i s ((s.advance i.length).waitAt s.ip a)

/-! ### From a rule to its effect -/

/-- A word that is invalid makes the instruction ill-formed. -/
theorem wellFormed_false {i : Instr} {w : Word16} (hm : w ∈ i.operands) (h : InvalidWord w) :
    i.wellFormed = false := by
  rw [Instr.wellFormed, List.all_eq_false]
  exact ⟨w, hm, by unfold InvalidWord at h; simpa [operandDefined] using h⟩

/-- The end of a rule that raised. -/
theorem Effect.of_raise {i : Instr} {s t u : State} {c : Cause} {w : Word16}
    (h : endStep s.ip (.error { cause := c, word := w } u) = .next t) (hp : Pre i s u) (hc : c ∈ mayRaise i)
    (hw : c = .invalidOperand → i.wellFormed = false) : Effect i s t := by
  cases h
  exact .raised u _ hp hc hw

/-- The end of a rule that raised INVALID_OPERAND at one of its operand words. -/
theorem Effect.of_invalid {i : Instr} {s t u : State} {w : Word16}
    (h : endStep s.ip (.error { cause := .invalidOperand, word := w } u) = .next t) (hp : Pre i s u)
    (hm : w ∈ i.operands) (hi : InvalidWord w) : Effect i s t := by
  refine .of_raise h hp ?_ fun _ => wellFormed_false hm hi
  cases i <;> simp [mayRaise, Instr.operands] at hm ⊢

/-- The end of a rule whose last part stores through its destination word. -/
theorem Effect.of_storeTo {i : Instr} {s t u : State} {a v : Word16}
    (h : endStep s.ip (storeTo a v u) = .next t) (hp : Pre i s u) (hd : destWord i = some a)
    (hm : a ∈ i.operands) (ht : isTransfer i = false)
    (hv : v.toNat ≤ 32767 ∨ .wideValue ∈ mayRaise i) : Effect i s t := by
  rcases storeTo_cases a v u with ⟨x, hx, e⟩ | ⟨r, hr, e⟩ | ⟨hi, e⟩ | ⟨hwide, e⟩ <;> rw [e] at h
  · cases h; exact .storedCell u a x v hp hd hx ht
  · cases h; exact .storedReg u a r _ hp hd hr ht
  · exact .of_invalid h hp hm hi
  · refine .of_raise h hp (hv.resolve_left (by omega)) fun hc => by cases hc

/-- A result of 15 bits never raises WIDE_VALUE. -/
theorem widen_le (v : Word15) : (widen v).toNat ≤ 32767 := by
  have := v.isLt
  rw [widen_toNat]
  omega

/-- The three-operand ALU instructions. -/
theorem Effect.of_aluRule {i : Instr} {s t : State} {op : AluOp} {a b c : Word16}
    (h : runInstr 4 (aluRule op a b c) s = .next t) (hl : i.length = 4) (ho : i.operands = [a, b, c])
    (hd : destWord i = some a) (ht : isTransfer i = false) (hz : op = .mod → .divideByZero ∈ mayRaise i) :
    Effect i s t := by
  unfold runInstr at h
  rw [← hl] at h
  unfold aluRule at h
  rw [Exec.bind_apply] at h
  rcases src_cases b (s.advance i.length) with ⟨x, -, hb⟩ | ⟨hi, hb⟩ <;> rw [hb] at h
  · simp only [Exec.bind_apply] at h
    rcases src_cases c (s.advance i.length) with ⟨y, -, hc⟩ | ⟨hi, hc⟩ <;> rw [hc] at h
    · simp only at h
      rcases alu_cases op x y with ⟨r, hr⟩ | ⟨hm, -, hr⟩
      · rw [aluResult_of_some hr] at h
        exact .of_storeTo h .plain hd (by simp [ho]) ht (.inl (widen_le r))
      · rw [aluResult_of_none hr] at h
        exact .of_raise h .plain (hz hm) fun e => by cases e
    · exact .of_invalid h .plain (by simp [ho]) hi
  · exact .of_invalid h .plain (by simp [ho]) hi

/-- What an instruction can do: every next state `exec` answers is one of the effects. -/
theorem exec_effect {i : Instr} {s t : State} (h : exec i s = .next t) : Effect i s t := by
  cases i with
  | hlt => cases h; exact .halted (.inl rfl)
  | noop => cases h; exact .quiet
  | set a b =>
    simp only [exec, execSet, runInstr, Exec.bind_apply] at h
    rcases src_cases b (s.advance 3) with ⟨x, -, e⟩ | ⟨hi, e⟩ <;> rw [e] at h
    · exact .of_storeTo h .plain rfl (by simp [Instr.operands]) rfl (.inl (widen_le x))
    · exact .of_invalid h .plain (by simp [Instr.operands]) hi
  | push a =>
    simp only [exec, execPush, runInstr, Exec.bind_apply] at h
    rcases src_cases a (s.advance 2) with ⟨x, -, e⟩ | ⟨hi, e⟩ <;> rw [e] at h
    · by_cases hf : StackFull (s.advance 2)
      · simp only [push_of_full hf] at h
        exact .of_raise h .plain (by simp [mayRaise]) fun e => by cases e
      · simp only [push_of_room hf] at h
        cases h
        exact .pushed a x rfl hf
    · exact .of_invalid h .plain (by simp [Instr.operands]) hi
  | pop a =>
    simp only [exec, execPop, runInstr, Exec.bind_apply] at h
    cases hs : s.stack with
    | nil =>
      rw [popTop_of_nil (show (s.advance 2).stack = [] from hs)] at h
      exact .of_raise h .plain (by simp [mayRaise]) fun e => by cases e
    | cons v rest =>
      rw [popTop_of_cons (show (s.advance 2).stack = v :: rest from hs)] at h
      exact .of_storeTo h (.popped a v rest rfl hs) rfl (by simp [Instr.operands]) rfl (.inl (widen_le v))
  | eq a b c => exact .of_aluRule h rfl rfl rfl rfl fun e => by cases e
  | gt a b c => exact .of_aluRule h rfl rfl rfl rfl fun e => by cases e
  | add a b c => exact .of_aluRule h rfl rfl rfl rfl fun e => by cases e
  | mult a b c => exact .of_aluRule h rfl rfl rfl rfl fun e => by cases e
  | mod a b c => exact .of_aluRule h rfl rfl rfl rfl fun _ => by simp [mayRaise]
  | and a b c => exact .of_aluRule h rfl rfl rfl rfl fun e => by cases e
  | or a b c => exact .of_aluRule h rfl rfl rfl rfl fun e => by cases e
  | not a b =>
    simp only [exec, execNot, runInstr, Exec.bind_apply] at h
    rcases src_cases b (s.advance 3) with ⟨x, -, e⟩ | ⟨hi, e⟩ <;> rw [e] at h
    · simp only [aluResult_of_some (show alu .not x 0 = some (~~~ x) from rfl)] at h
      exact .of_storeTo h .plain rfl (by simp [Instr.operands]) rfl (.inl (widen_le _))
    · exact .of_invalid h .plain (by simp [Instr.operands]) hi
  | rmem a b =>
    simp only [exec, execRmem, runInstr, Exec.bind_apply] at h
    rcases src_cases b (s.advance 3) with ⟨x, -, e⟩ | ⟨hi, e⟩ <;> rw [e] at h
    · simp only [memRead_widen] at h
      exact .of_storeTo h .plain rfl (by simp [Instr.operands]) rfl (.inr (by simp [mayRaise]))
    · exact .of_invalid h .plain (by simp [Instr.operands]) hi
  | wmem a b =>
    simp only [exec, execWmem, runInstr, Exec.bind_apply] at h
    rcases src_cases a (s.advance 3) with ⟨x, hx, e⟩ | ⟨hi, e⟩ <;> rw [e] at h
    · simp only at h
      rcases src_cases b (s.advance 3) with ⟨v, -, e'⟩ | ⟨hi, e'⟩ <;> rw [e'] at h
      · simp only [memWrite_widen] at h
        cases h
        exact .wroteCell a b x (widen v) rfl hx
      · exact .of_invalid h .plain (by simp [Instr.operands]) hi
    · exact .of_invalid h .plain (by simp [Instr.operands]) hi
  | jmp a =>
    simp only [exec, execJmp, runInstr, Exec.bind_apply] at h
    rcases src_cases a (s.advance 2) with ⟨x, hx, e⟩ | ⟨hi, e⟩ <;> rw [e] at h
    · cases h; exact .jumped _ a x .plain rfl (by simp [Instr.operands]) hx
    · exact .of_invalid h .plain (by simp [Instr.operands]) hi
  | jt a b =>
    simp only [exec, execJt, runInstr, Exec.bind_apply] at h
    rcases src_cases a (s.advance 3) with ⟨x, -, e⟩ | ⟨hi, e⟩ <;> rw [e] at h
    · simp only [Exec.ite_apply, Exec.bind_apply] at h
      split at h
      · cases h; exact .quiet
      · rcases src_cases b (s.advance 3) with ⟨y, hy, e'⟩ | ⟨hi, e'⟩ <;> rw [e'] at h
        · cases h; exact .jumped _ b y .plain rfl (by simp [Instr.operands]) hy
        · exact .of_invalid h .plain (by simp [Instr.operands]) hi
    · exact .of_invalid h .plain (by simp [Instr.operands]) hi
  | jf a b =>
    simp only [exec, execJf, runInstr, Exec.bind_apply] at h
    rcases src_cases a (s.advance 3) with ⟨x, -, e⟩ | ⟨hi, e⟩ <;> rw [e] at h
    · simp only [Exec.ite_apply, Exec.bind_apply] at h
      split at h
      · rcases src_cases b (s.advance 3) with ⟨y, hy, e'⟩ | ⟨hi, e'⟩ <;> rw [e'] at h
        · cases h; exact .jumped _ b y .plain rfl (by simp [Instr.operands]) hy
        · exact .of_invalid h .plain (by simp [Instr.operands]) hi
      · cases h; exact .quiet
    · exact .of_invalid h .plain (by simp [Instr.operands]) hi
  | call a =>
    simp only [exec, execCall, runInstr, Exec.bind_apply, currentIp_apply] at h
    by_cases hf : StackFull (s.advance 2)
    · simp only [push_of_full hf] at h
      exact .of_raise h .plain (by simp [mayRaise]) fun e => by cases e
    · simp only [push_of_room hf] at h
      have hp : Pre (.call a) s ((s.advance 2).withStack ((s.advance 2).ip :: (s.advance 2).stack)) := by
        rw [advance_ip_eq]
        exact .pushed a rfl hf
      rcases src_cases a ((s.advance 2).withStack ((s.advance 2).ip :: (s.advance 2).stack)) with ⟨x, hx, e⟩ | ⟨hi, e⟩
      · rw [e] at h
        cases h
        exact .jumped _ a x hp rfl (by simp [Instr.operands]) hx
      · rw [e] at h
        exact .of_invalid h hp (by simp [Instr.operands]) hi
  | ret =>
    simp only [exec, execRet, runInstr, Exec.bind_apply] at h
    cases hs : s.stack with
    | nil =>
      rw [popTop_of_nil (show (s.advance 1).stack = [] from hs)] at h
      cases h
      exact .halted (.inr ⟨rfl, hs⟩)
    | cons v rest =>
      rw [popTop_of_cons (show (s.advance 1).stack = v :: rest from hs)] at h
      cases h
      exact .returned v rest rfl hs
  | out a =>
    simp only [exec, execOut, runInstr, Exec.bind_apply] at h
    rcases src_cases a (s.advance 2) with ⟨x, -, e⟩ | ⟨hi, e⟩ <;> rw [e] at h
    · cases h; exact .emitted a x rfl
    · exact .of_invalid h .plain (by simp [Instr.operands]) hi
  | inp a =>
    simp only [exec, execIn] at h
    rcases askInput_cases s.ip a (s.advance 2) with ⟨ch, rest, hq, e⟩ | ⟨-, e⟩ | ⟨-, e⟩ <;> rw [e] at h
    · rw [deliver_eq] at h
      split at h
      · next hs => cases h; exact .sentinel a ch rest rfl hq hs.1
      · exact .of_storeTo h (.took a ch rest rfl hq) rfl (by simp [Instr.operands]) rfl
          (.inr (by simp [mayRaise]))
    · cases h
      exact .raised _ _ (.ended a rfl) (by simp [mayRaise]) fun e => by cases e
    · cases h; exact .waited a rfl

end Sys2Proof.Machine
end

