-- ==== Sys2Proof/Laws/Loader.lean ====
section
/-! SUPPORT. The loader: what a load that is not rejected gives, and what a cell of the filled memory
reads as. -/

namespace Sys2Proof.Machine

/-- When a patch is in range (R303). -/
theorem Patch.inRange_iff (p : Patch) : p.inRange = true ↔ p.addr < 32768 ∧ p.value < 65536 :=
  decide_eq_true_iff

/-- A load that is not rejected: its image and patches passed the checks, and the state is built. -/
theorem load_ok {ps : Params} {image : List Byte} {patches : List Patch} {s : State}
    (h : load ps image patches = .ok s) :
    image.length ≤ 65536 ∧ image.length % 2 = 0 ∧ (∀ p ∈ patches, p.inRange = true) ∧
      s = State.loaded ps (applyPatches (fillMemory image) patches) := by
  unfold load at h
  split at h
  · cases h
  · next hsize =>
    split at h
    · cases h
    · next hodd =>
      split at h
      · next hp =>
        cases h
        unfold imageMaxBytes at hsize
        exact ⟨by omega, by omega, List.all_eq_true.1 hp, rfl⟩
      · cases h

/-- The filled bytes: the image's byte, and 0 before the start and past the end. -/
theorem byteAt_memoryOfBytes (bs : List Byte) : ∀ k a : Nat,
    Memory.byteAt (memoryOfBytes k bs) a = if k ≤ a then bs.getD (a - k) 0 else 0 := by
  induction bs with
  | nil => intro k a; simp [memoryOfBytes, unlistedByte]
  | cons b rest ih =>
    intro k a
    have hcons : (if k ≤ a then (b :: rest).getD (a - k) 0 else 0) =
        if k = a then b else if k + 1 ≤ a then rest.getD (a - (k + 1)) 0 else 0 := by
      by_cases h1 : k = a
      · subst h1; simp
      · by_cases h2 : k ≤ a
        · obtain ⟨d, rfl⟩ : ∃ d, a = k + 1 + d := ⟨a - (k + 1), by omega⟩
          simp [show k + 1 + d - k = d + 1 by omega, h1, show k ≤ k + 1 + d by omega,
            show k + 1 ≤ k + 1 + d by omega]
        · simp [h1, h2, show ¬ k + 1 ≤ a by omega]
    rw [hcons, memoryOfBytes]
    split
    · next hb =>
      rw [ih]
      by_cases hk : k = a
      · subst hk; simp [hb, unlistedByte]
      · simp [hk]
    · simp only [Memory.byteAt, ih]

/-- The filled cells (R302). -/
theorem cell_fillMemory (image : List Byte) (x : Word15) :
    (Memory.cell (fillMemory image) x).toNat = imageWord image x.toNat := by
  rw [Memory.cell, fillMemory, wordOfBytes_toNat, byteAt_memoryOfBytes, byteAt_memoryOfBytes]
  simp [imageWord]

/-- A cell that no patch names is kept (R303). -/
theorem cell_applyPatches_of_not_named (patches : List Patch) : ∀ (m : Memory) (x : Word15),
    (∀ p ∈ patches, p.inRange = true) → (∀ p ∈ patches, p.addr ≠ x.toNat) →
      Memory.cell (applyPatches m patches) x = Memory.cell m x := by
  induction patches with
  | nil => exact fun _ _ _ _ => rfl
  | cons p rest ih =>
    intro m x hr h
    have hp := (Patch.inRange_iff p).1 (hr p (by simp))
    have hx : x ≠ BitVec.ofNat 15 p.addr := by
      rintro rfl
      exact h p (by simp) (by simp; omega)
    have := ih (Memory.setCell m (BitVec.ofNat 15 p.addr) (BitVec.ofNat 16 p.value)) x
      (fun q hq => hr q (by simp [hq])) (fun q hq => h q (by simp [hq]))
    rw [Memory.cell_setCell, if_neg hx] at this
    exact this

end Sys2Proof.Machine
end

