-- ==== Sys2Proof/Laws/Step.lean ====
section
/-! SUPPORT. What a step can do, said once: nothing, one instruction, an undefined opcode, or the rest of
an IN that waited. With it, what an instruction keeps before its last effect. -/

namespace Sys2Proof.Machine

/-! ### What `Pre` keeps -/

theorem Pre.reg {i : Instr} {s u : State} (h : Pre i s u) (r : Fin 8) : u.reg r = s.reg r := by
  cases h <;> rfl
theorem Pre.cell {i : Instr} {s u : State} (h : Pre i s u) (x : Word15) : u.cell x = s.cell x := by
  cases h <;> rfl
theorem Pre.mem {i : Instr} {s u : State} (h : Pre i s u) : u.mem = s.mem := by
  cases h <;> rfl
theorem Pre.params {i : Instr} {s u : State} (h : Pre i s u) : u.params = s.params := by
  cases h <;> rfl
theorem Pre.output {i : Instr} {s u : State} (h : Pre i s u) : u.output = s.output := by
  cases h <;> rfl
theorem Pre.status {i : Instr} {s u : State} (h : Pre i s u) :
    u.runState = s.runState ∧ u.cause = s.cause ∧ u.faultWord = s.faultWord ∧ u.faultPc = s.faultPc := by
  cases h <;> exact ⟨rfl, rfl, rfl, rfl⟩
theorem Pre.ip {i : Instr} {s u : State} (h : Pre i s u) : u.ip = ipAfter s i.length := by
  cases h <;> simp [← advance_ip_eq]
/-- POP has taken its entry, CALL has pushed its return address, and no other instruction has touched the
stack. -/
theorem Pre.stack {i : Instr} {s u : State} (h : Pre i s u) :
    u.stack = s.stack ∨ (∃ a, i = .pop a ∧ ∃ v, s.stack = v :: u.stack) ∨
      (∃ a, i = .call a ∧ ¬ StackFull s ∧ u.stack = ipAfter s 2 :: s.stack) := by
  cases h with
  | popped a v rest hi hs => exact .inr (.inl ⟨a, hi, v, hs⟩)
  | pushed a hi hr => exact .inr (.inr ⟨a, hi, hr, rfl⟩)
  | _ => exact .inl rfl
/-- Only IN has touched the input port. -/
theorem Pre.input {i : Instr} {s u : State} (h : Pre i s u) (hn : ∀ a, i ≠ .inp a) :
    u.input = s.input ∧ u.waiting = s.waiting := by
  cases h with
  | took a ch rest hi => exact absurd hi (hn a)
  | ended a hi => exact absurd hi (hn a)
  | _ => exact ⟨rfl, rfl⟩

/-! ### The input port's part of a step -/

/-- What asking the input port for the IN at `p` with destination word `a` can leave. -/
inductive AskEffect (p : Word15) (a : Word16) (s : State) : State → Prop where
  | waited (hq : s.input.take = .noAnswer) : AskEffect p a s (s.waitAt p a)
  | ended (hq : s.input.take = .endOfInput) :
      AskEffect p a s (enterError p { cause := .inputEnd, word := 0 } (s.answered s.input))
  | raised (ch : Word16) (rest : InputPort) (e : Raise) (hq : s.input.take = .char ch rest)
      (hc : e.cause ≠ .none) : AskEffect p a s (enterError p e (s.answered rest))
  | storedCell (ch : Word16) (rest : InputPort) (x : Word15) (hq : s.input.take = .char ch rest) :
      AskEffect p a s ((s.answered rest).setCell x ch)
  | storedReg (ch : Word16) (rest : InputPort) (r : Fin 8) (v : Word15)
      (hq : s.input.take = .char ch rest) : AskEffect p a s ((s.answered rest).setReg r v)

/-- What asking the input port can do. -/
theorem askInput_effect {p : Word15} {a : Word16} {s t : State} (h : askInput p a s = .next t) :
    AskEffect p a s t := by
  rcases askInput_cases p a s with ⟨ch, rest, hq, e⟩ | ⟨hq, e⟩ | ⟨hq, e⟩ <;> rw [e] at h
  · rw [deliver_eq] at h
    split at h
    · cases h; exact .storedReg ch rest _ _ hq
    · rcases storeTo_cases a ch (s.answered rest) with ⟨x, -, e⟩ | ⟨r, -, e⟩ | ⟨-, e⟩ | ⟨-, e⟩ <;>
        rw [e] at h <;> cases h
      · exact .storedCell ch rest x hq
      · exact .storedReg ch rest r _ hq
      · exact .raised ch rest _ hq (by simp)
      · exact .raised ch rest _ hq (by simp)
  · cases h; exact .ended hq
  · cases h; exact .waited hq

/-! ### The step -/

/-- What a step can be. -/
inductive StepEffect (s t : State) : Prop where
  | unchanged (hr : s.Terminal) (ht : t = s) : StepEffect s t
  | executed (i : Instr) (hr : s.runState = .running) (hw : s.waiting = none)
      (hf : s.fetchInstr = some i) (he : exec i s = .next t) : StepEffect s t
  | undefined (hr : s.runState = .running) (hw : s.waiting = none) (hf : s.fetchInstr = none)
      (ht : t = raiseUndefinedOpcode s) : StepEffect s t
  | resumed (w : InWait) (hr : s.runState = .running) (hw : s.waiting = some w)
      (ha : AskEffect w.addr w.dest s t) : StepEffect s t

/-- What a step can do: every next state is one of these. -/
theorem step_effect {s t : State} (h : step s = .next t) : StepEffect s t := by
  unfold step at h
  split at h
  · next hr => cases h; exact .unchanged (.inl hr) rfl
  · next hr => cases h; exact .unchanged (.inr hr) rfl
  · next hr =>
    split at h
    · next w hw => exact .resumed w hr hw (askInput_effect h)
    · next hw =>
      split at h
      · next i hi => exact .executed i hr hw hi h
      · next hn => cases h; exact .undefined hr hw hn rfl

/-- In a terminal status a step does nothing (R111). -/
theorem step_of_terminal {s : State} (h : s.Terminal) : step s = .next s := by
  rcases h with h | h <;> simp [step, h]

/-! ### The step port -/

/-- The step port after a step that has ended (R35). -/
theorem stepPort_of_ended {s t : State} (h : step s = .next t) (hw : t.waiting = none) :
    stepPort s = some (.ended { runState := t.runState, ip := t.ip, regs := t.regs }, t) := by
  simp [stepPort, h, State.stepReply, State.betweenSteps, hw]

/-- The step port while an IN still waits (R124). -/
theorem stepPort_of_waiting {s t : State} (h : step s = .next t) (hw : t.waiting ≠ none) :
    stepPort s = some (.inProgress, t) := by
  simp [stepPort, h, State.stepReply, State.betweenSteps, hw]

/-- A `STEP` request as an event leaves what the step leaves. -/
theorem applyEvent_step {s t : State} (h : step s = .next t) : applyEvent .step s = some t := by
  simp [applyEvent, stepPort, h]

end Sys2Proof.Machine
end

