-- ==== Sys2Proof/Tests/Slice0.lean ====
section
/-! SUPPORT. Tests: words written out from the opcode map (R80, R87), single steps with the results that the
vectors of `95_test_vectors.md` give (named in each comment), and for each obligation with hypotheses a
witness that meets them. -/

namespace Sys2Proof.Tests
open Sys2Proof.Machine

/-! ### Helpers -/

/-- The reset state with words stored from address 0 on. -/
def program (words : List Word16) : State := State.reset.setCells 0 words

/-- The reset state with one register set. -/
def withReg (i : Fin 8) (v : Word15) (words : List Word16) : State := (program words).setReg i v

/-- A program with a script pre-loaded. -/
def withScript (script : List Word16) (words : List Word16) : State := (program words).preload script

/-- The parameters with another `WIDE_STORE`. -/
def masking (s : State) : State := { s with params := { s.params with wideStore := .mask15 } }

/-- The parameters with a finite `STACK_DEPTH`. -/
def shallow (d : Nat) (s : State) : State := { s with params := { s.params with stackDepth := some d } }

/-- The step answers a next state that passes a check. -/
def after (s : State) (check : State → Bool) : Bool :=
  match step s with
  | .next t => check t
  | .fault _ => false
  | .refused _ => false

/-- The step ends in Error with this cause, `FAULT_WORD`, `FAULT_PC` and `ip`. -/
def errs (s : State) (cause : Cause) (word : Word16) (pc ip : Word15) : Bool :=
  after s fun t => t.runState == .error && t.cause == cause && t.faultWord == word && t.faultPc == pc &&
    t.ip == ip

/-! ### WellFormed: a term with an invalid word in each operand place is refused -/

theorem test_wellFormed_refuses_a : (Instr.set 32776 5).wellFormed = false := by decide
theorem test_wellFormed_refuses_b : (Instr.jt 0 40000).wellFormed = false := by decide
theorem test_wellFormed_refuses_c : (Instr.mod 1 2 65535).wellFormed = false := by decide
theorem test_wellFormed_accepts_bounds : (Instr.add 32775 32767 32768).wellFormed = true := by decide

/-! ### Decoding: words written out from R87 -/

theorem test_decode_hlt : decode [0] = .ok (.hlt, []) := by decide
theorem test_decode_set : decode [1, 32768, 5] = .ok (.set 32768 5, []) := by decide
theorem test_decode_push : decode [2, 32769] = .ok (.push 32769, []) := by decide
theorem test_decode_pop : decode [3, 32771, 7] = .ok (.pop 32771, [7]) := by decide
theorem test_decode_eq : decode [4, 32770, 32768, 5] = .ok (.eq 32770 32768 5, []) := by decide
theorem test_decode_gt : decode [5, 32768, 7, 3] = .ok (.gt 32768 7 3, []) := by decide
theorem test_decode_jmp : decode [6, 32767] = .ok (.jmp 32767, []) := by decide
theorem test_decode_jt : decode [7, 32768, 20] = .ok (.jt 32768 20, []) := by decide
theorem test_decode_jf : decode [8, 32770, 3] = .ok (.jf 32770 3, []) := by decide
theorem test_decode_add : decode [9, 32769, 32768, 48] = .ok (.add 32769 32768 48, []) := by decide
theorem test_decode_mult : decode [10, 1, 2, 3] = .ok (.mult 1 2 3, []) := by decide
theorem test_decode_mod : decode [11, 1, 2, 3] = .ok (.mod 1 2 3, []) := by decide
theorem test_decode_and : decode [12, 1, 2, 3] = .ok (.and 1 2 3, []) := by decide
theorem test_decode_or : decode [13, 1, 2, 3] = .ok (.or 1 2 3, []) := by decide
theorem test_decode_not : decode [14, 1, 2] = .ok (.not 1 2, []) := by decide
theorem test_decode_rmem : decode [15, 32768, 100] = .ok (.rmem 32768 100, []) := by decide
theorem test_decode_wmem : decode [16, 100, 65] = .ok (.wmem 100 65, []) := by decide
theorem test_decode_call : decode [17, 12] = .ok (.call 12, []) := by decide
theorem test_decode_ret : decode [18] = .ok (.ret, []) := by decide
theorem test_decode_out : decode [19, 65] = .ok (.out 65, []) := by decide
theorem test_decode_in : decode [20, 32768] = .ok (.inp 32768, []) := by decide
theorem test_decode_noop : decode [21] = .ok (.noop, []) := by decide
theorem test_decode_undefined : decode [22] = .error (.undefinedOpcode 22) := by decide
theorem test_decode_truncated : decode [9, 1, 2] = .error .truncated := by decide

/-- R55: the bytes of `[19, 65]` in the image, low byte first. -/
theorem test_encodeBytes_out : encodeBytes (.out 65) = [19, 0, 65, 0] := by decide
/-- The table's bits of `WMEM 258, 32769`: words 16, 258, 32769 from bit 0 up. -/
theorem test_decodeTableWord_wmem :
    decodeTableWord 48 0x800101020010 = some (.wmem 258 32769) := by decide
/-- Bits at or above `nbits` are 0: ADD with three operand words of zeros. -/
theorem test_decodeTableWord_short : decodeTableWord 16 0xFFFF0009 = some (.add 0 0 0) := by decide
theorem test_decodeTableWord_undefined : decodeTableWord 16 22 = none := by decide
/-- The first step after reset runs the word placed with `withFetchWord`. -/
theorem test_withFetchWord_set :
    after (State.reset.withFetchWord 48 0x000580000001) (fun t => t.reg 0 == 5 && t.ip == 3) = true := by
  decide

/-! ### The step -/

/-- L2-2. -/
theorem test_undefined_opcode : errs (program [22]) .undefinedOpcode 22 0 0 = true := by decide
/-- L2-8: the trace of a CALL at address 3. -/
theorem test_trace_call : { program [1, 32768, 7, 17, 12] with ip := 3 }.trace =
    some { addr := 3, op := 17, arity := 2, a := some 12, b := none, c := none } := by decide
/-- L2-6: the operands of an ADD at 32766 wrap. -/
theorem test_operand_fetch_wraps :
    after { ((program [6, 32766]).setCell 32766 9).setCell 32767 32768 with ip := 32766 }
      (fun t => t.reg 0 == 4 && t.ip == 2) = true := by decide
/-- Writing the value an unlisted byte reads as removes the entries. -/
theorem test_memory_canonical : ((State.reset.setCell 100 40000).setCell 100 0).mem = [] := by decide

/-! ### One step of each instruction -/

/-- L2-50. -/
theorem test_hlt : after (program [0]) (fun t => t.runState == .halted && t.ip == 1) = true := by decide
/-- L2-51. -/
theorem test_noop : after (program [21, 0]) (fun t => t == { program [21, 0] with ip := 1 }) = true := by
  decide
/-- L2-11. -/
theorem test_set_memory : after (program [1, 100, 5])
    (fun t => t.cell 100 == 5 && t.regs == RegFile.zero && t.ip == 3) = true := by decide
/-- L2-14. -/
theorem test_set_invalid : errs (program [1, 32776, 5]) .invalidOperand 32776 0 3 = true := by decide
/-- L2-15. -/
theorem test_push_register :
    after (withReg 1 9 [2, 32769]) (fun t => t.stack == [9] && t.ip == 2) = true := by decide
/-- L2-85, its second step. -/
theorem test_push_full : errs (shallow 1 { program [2, 1, 2, 2] with ip := 2, stack := [1] })
    .stackOverflow 2 2 4 = true := by decide
/-- L2-20: the empty stack is seen before the invalid operand. -/
theorem test_pop_empty : errs (program [3, 40000]) .stackUnderflow 0 0 2 = true := by decide
/-- L2-19, its second step: the popped entry is lost. -/
theorem test_pop_invalid :
    (errs { program [2, 7, 3, 40000] with ip := 2, stack := [7] } .invalidOperand 40000 2 4 &&
      after { program [2, 7, 3, 40000] with ip := 2, stack := [7] } (fun t => t.stack == [])) = true := by
  decide
/-- L2-30. -/
theorem test_eq : after (withReg 0 5 [4, 32770, 32768, 5]) (fun t => t.reg 2 == 1) = true := by decide
/-- L2-31, with the destination set beforehand. -/
theorem test_eq_unequal :
    after (withReg 2 9 [4, 32770, 5, 6]) (fun t => t.reg 2 == 0) = true := by decide
/-- L2-32. -/
theorem test_gt : after (program [5, 32768, 7, 3]) (fun t => t.reg 0 == 1) = true := by decide
/-- L2-33: equal values are not greater. -/
theorem test_gt_equal : after (withReg 0 9 [5, 32768, 3, 3]) (fun t => t.reg 0 == 0) = true := by decide
/-- L1-2. -/
theorem test_add_wraps : after (program [9, 32768, 32767, 2]) (fun t => t.reg 0 == 1) = true := by decide
/-- L2-7: the destination is also the source. -/
theorem test_add_same : after (withReg 0 3 [9, 32768, 32768, 32768]) (fun t => t.reg 0 == 6) = true := by
  decide
/-- L1-3. -/
theorem test_mult : after (program [10, 32768, 20000, 20000]) (fun t => t.reg 0 == 1024) = true := by decide
/-- L2-36. -/
theorem test_mult_max : after (program [10, 32768, 32767, 32767]) (fun t => t.reg 0 == 1) = true := by
  decide
/-- L2-37. -/
theorem test_mod : after (program [11, 32768, 12345, 100]) (fun t => t.reg 0 == 45) = true := by decide
/-- L2-40: the fault word is the raw divisor word. -/
theorem test_mod_zero : errs (program [11, 32768, 10, 32769]) .divideByZero 32769 0 4 = true := by decide
/-- L2-42. -/
theorem test_and : after (program [12, 32768, 0x1234, 0x0FF0]) (fun t => t.reg 0 == 560) = true := by decide
/-- L2-43. -/
theorem test_or : after (program [13, 32768, 0x1234, 0x0FF0]) (fun t => t.reg 0 == 8180) = true := by decide
/-- L2-44. -/
theorem test_not : after (program [14, 32768, 0x1234]) (fun t => t.reg 0 == 28107 && t.ip == 3) = true := by
  decide
/-- L2-23. -/
theorem test_rmem_wide : errs (program [15, 32768, 1]) .wideValue 32768 0 3 = true := by decide
/-- L2-25: a memory destination takes 16 bits. -/
theorem test_rmem_memory : after ((program [15, 50, 100]).setCell 100 40000)
    (fun t => t.cell 50 == 40000) = true := by decide
/-- L2-27. -/
theorem test_wmem : after ((withReg 0 200 [16, 32768, 32769]).setReg 1 300)
    (fun t => t.cell 200 == 300 && t.ip == 3) = true := by decide
/-- L2-53. -/
theorem test_jmp : after (withReg 0 4 [6, 32768]) (fun t => t.ip == 4) = true := by decide
/-- L2-56: the target of a branch that is not taken is not resolved. -/
theorem test_jt_not_taken :
    after (program [7, 0, 40000]) (fun t => t.ip == 3 && t.runState == .running) = true := by decide
/-- L2-57. -/
theorem test_jt_invalid : errs (program [7, 1, 40000]) .invalidOperand 40000 0 3 = true := by decide
/-- L2-59, with a target that is not the next word. -/
theorem test_jf_taken : after (program [8, 32770, 9]) (fun t => t.ip == 9) = true := by decide
/-- L2-60. -/
theorem test_jf_not_taken : after (withReg 2 1 [8, 32770, 9]) (fun t => t.ip == 3) = true := by decide
/-- L2-62, its second step: the return address wraps. -/
theorem test_call_wraps :
    after { ((program [6, 32766]).setCell 32766 17).setCell 32767 10 with ip := 32766 }
      (fun t => t.stack == [0] && t.ip == 10) = true := by decide
/-- L2-61: the pushed return address stays. -/
theorem test_call_invalid : (errs (program [17, 40000]) .invalidOperand 40000 0 2 &&
    after (program [17, 40000]) (fun t => t.stack == [2])) = true := by decide
/-- L1-5, its second step. -/
theorem test_ret : after { program [17, 4, 0, 0, 18] with ip := 4, stack := [2] }
    (fun t => t.ip == 2 && t.stack == []) = true := by decide
/-- L2-63. -/
theorem test_ret_empty :
    after (program [18]) (fun t => t.runState == .halted && t.cause == .none && t.ip == 1) = true := by decide
/-- L1-10, its second step. -/
theorem test_out : after (withReg 0 5 [19, 32768]) (fun t => t.output == [5] && t.ip == 2) = true := by
  decide
/-- L2-71. -/
theorem test_out_invalid : (errs (program [19, 32776]) .invalidOperand 32776 0 2 &&
    after (program [19, 32776]) (fun t => t.output == [])) = true := by decide
/-- L2-75: the sentinel leaves the invalid destination unresolved. -/
theorem test_in_sentinel : after (withScript [36] [20, 40000])
    (fun t => t.reg 7 == 25734 && t.ip == 2 && t.runState == .running) = true := by decide
/-- L2-79 with `WIDE_STORE` = mask15. -/
theorem test_in_mask15 : after (masking (withScript [40000] [20, 32768]))
    (fun t => t.reg 0 == 7232 && t.input == InputPort.empty) = true := by decide

/-! ### Loader, host port, disassembler -/

/-- L2-88. -/
theorem test_load_odd : load Params.default [1, 2, 3] [] = .error .malformedImage := by decide
/-- L2-90: the later patch wins. -/
theorem test_load_patches :
    (match load Params.default [0, 0] [⟨0, 21⟩, ⟨1, 5⟩, ⟨1, 0⟩] with
      | .ok s => s.cell 0 == 21 && s.cell 1 == 0
      | .error _ => false) = true := by decide
/-- L2-91. -/
theorem test_load_patch_range : load Params.default [] [⟨32768, 0⟩] = .error .patchOutOfRange ∧
    load Params.default [] [⟨0, 65536⟩] = .error .patchOutOfRange := by decide
/-- R305: carriage returns are removed from a script, newlines stay. -/
theorem test_preload : (State.reset.preload [65, 13, 10]).input.queue = [65, 10] := by decide
/-- R27: Error is 2 and DIVIDE_BY_ZERO is 4, so the word is 18. -/
theorem test_status_word :
    { State.reset with runState := .error, cause := .divideByZero }.statusWord = 18 := by decide

/-- L1-11, its first four lines. -/
theorem test_listing_start : (passFrom (program [21, 0, 99]).mem 4 0).map Entry.text =
    ["0000: 0015                 NOOP", "0001: 0000                 HLT",
      "0002: 0063                 DATA 0x0063", "0003: 0000                 HLT"] := by decide
/-- L2-95, its first three lines: a character, an escape and a decode error. -/
theorem test_listing_tokens :
    (passFrom (program [19, 65, 19, 10, 1, 32776, 5]).mem 3 0).map Entry.text =
      ["0000: 0013 0041            OUT 'A'", "0002: 0013 000A            OUT '\\n'",
        "0004: 0001 8008 0005       SET ?0x8008, 0x0005  ; decode error"] := by decide
/-- L2-95, further characters: quote, backslash, and codes that are not printable. -/
theorem test_listing_characters :
    [39, 92, 32769, 40000, 5].map charText =
      ["'\\''", "'\\\\'", "'\\u8001'", "'\\u9C40'", "'\\u0005'"] := by decide
/-- P1, its second line. -/
theorem test_listing_add :
    (passFrom (program [9, 32769, 32768, 48]).mem 1 0).map Entry.text =
      ["0000: 0009 8001 8000 0030  ADD R1, R0, 0x0030"] := by decide
/-- L2-96: an instruction that does not fit below the top of memory. -/
theorem test_listing_end : (passFrom (State.reset.setCell 32766 9).mem 3 32765).map Entry.text =
    ["7FFD: 0000                 HLT", "7FFE: 0009                 DATA 0x0009",
      "7FFF: 0000                 DATA 0x0000"] := by decide
/-- L2-97: an exact fit. -/
theorem test_listing_exact_fit :
    (passFrom (State.reset.setCells 32765 [17, 5, 18]).mem 3 32764).map Entry.text =
      ["7FFC: 0000                 HLT", "7FFD: 0011 0005            CALL 0x0005",
        "7FFF: 0012                 RET"] := by decide

/-! ### Witnesses: a concrete state and operands for the hypotheses of each obligation, and for each of its
clauses, at the ends of the ranges of R82. `start` holds 30000 in register 7 and 12 in register 0. -/

/-- Two registers set, one entry on the stack, and cells 5 (narrow) and 6 (wide) set. -/
def start : State :=
  { (((State.reset.setReg 7 30000).setReg 0 12).setCell 5 7).setCell 6 40000 with stack := [9] }

/-- The sentinel switched off. -/
def plainInput (s : State) : State := { s with params := { s.params with sentinelEnable := false } }

/-- A literal word denotes itself. -/
theorem denotes_literal (s : State) (w : Word16) (x : Word15) (h : w.toNat ≤ 32767 ∧ x.toNat = w.toNat) :
    Denotes s w x := .inl h

/-- A register word denotes the register's value. -/
theorem denotes_register (s : State) (w : Word16) (i : Fin 8) (h : w.toNat = 32768 + i.val) :
    Denotes s w (s.reg i) := .inr ⟨i, h, rfl⟩

/-- The values `start` gives the operand words at the ends of the valid ranges. -/
theorem start_denotes : Denotes start 0 0 ∧ Denotes start 32767 32767 ∧ Denotes start 32768 12 ∧
    Denotes start 32775 30000 ∧ InvalidWord 32776 ∧ InvalidWord 65535 ∧ ¬ InvalidWord 32775 ∧
    ¬ InvalidWord 0 := by
  refine ⟨.inl (by decide), .inl (by decide), .inr ⟨0, by decide, by decide⟩, .inr ⟨7, by decide, by decide⟩,
    by unfold InvalidWord; decide, by unfold InvalidWord; decide, by unfold InvalidWord; decide,
    by unfold InvalidWord; decide⟩

theorem witness_DecodeAcceptsOnlyEncodings : decode [9, 1, 32775, 65535, 8] = .ok (.add 1 32775 65535, [8]) := by
  decide

/-- Both clauses, at 21 and at 22. -/
theorem witness_OpcodeWordSelectsOrIsUndefined :
    (21 : Word16).toNat ≤ 21 ∧ 22 ≤ (22 : Word16).toNat ∧ 22 ≤ (65535 : Word16).toNat := by decide

/-- An instruction at 32766, so that its words wrap. For StepRunsTheDecodedInstruction and
TracePresentsDecodedInstruction. -/
theorem witness_AtInstruction :
    AtInstruction { (State.reset.setCells 32766 [9, 32768, 6, 7]) with ip := 32766 } (.add 32768 6 7) := by
  unfold AtInstruction; decide

theorem witness_UndefinedOpcodeRaises : (program [22]).runState = .running ∧ (program [22]).waiting = none ∧
    22 ≤ ((program [22]).cell (program [22]).ip).toNat := by decide

/-- Both terminal statuses. -/
theorem witness_TerminalStepsChangeNothing : start.withHalted.Terminal ∧
    (enterError 3 { cause := .inputEnd, word := 0 } start).Terminal := ⟨.inl rfl, .inr rfl⟩

/-- The port without and with an answer. -/
theorem witness_WaitingStepIsUninterrupted :
    (start.waitAt 3 32768).runState = .running ∧
    (start.waitAt 3 32768).waiting = some { addr := 3, dest := 32768 } ∧
    (start.waitAt 3 32768).input.take = .noAnswer ∧
    ((start.waitAt 3 32768).endInput).input.take ≠ .noAnswer := by decide

theorem witness_WrittenInstructionIsFetched : start.runState = .running ∧ start.waiting = none := by decide

/-- The three classes of R82 at both ends of each range. -/
theorem witness_OperandResolution : (0 : Word16).toNat ≤ 32767 ∧ (32767 : Word16).toNat ≤ 32767 ∧
    (32768 : Word16).toNat = 32768 + (0 : Fin 8).val ∧ (32775 : Word16).toNat = 32768 + (7 : Fin 8).val ∧
    32776 ≤ (32776 : Word16).toNat ∧ 32776 ≤ (65535 : Word16).toNat := by decide

/-- A narrow value, a wide one under mask15, and a wide one under fault. -/
theorem witness_StoreWritesOneSlot : (32767 : Word16).toNat ≤ 32767 ∧
    (masking start).params.wideStore = .mask15 ∧ 32767 < (32768 : Word16).toNat ∧
    start.params.wideStore = .fault := by decide

theorem witness_MemoryPrimitives : (32767 : Word16).toNat = (32767 : Word15).toNat ∧
    32768 ≤ (32768 : Word16).toNat := by decide

/-- SET, NOT, and the general clauses of the other two-operand rules: an invalid source, a source with an
invalid destination, a source with a destination at each end of its ranges. -/
theorem witness_SetFollowsItsRule_NotFollowsItsRule : InvalidWord 32776 ∧
    (Denotes start 32775 30000 ∧ InvalidWord 65535) ∧ (Denotes start 32767 32767 ∧ ¬ InvalidWord 32775) :=
  have h := start_denotes
  ⟨h.2.2.2.2.1, ⟨h.2.2.2.1, h.2.2.2.2.2.1⟩, h.2.1, h.2.2.2.2.2.2.1⟩

/-- The stack is full at depth 1, and has room at depth 2 and without a bound. -/
theorem witness_PushFollowsItsRule : InvalidWord 32776 ∧
    (Denotes (shallow 1 start) 32775 30000 ∧ StackFull (shallow 1 start)) ∧
    (Denotes (shallow 2 start) 32767 32767 ∧ ¬ StackFull (shallow 2 start)) ∧
    (Denotes start 0 0 ∧ ¬ StackFull start) :=
  ⟨start_denotes.2.2.2.2.1, ⟨denotes_register _ _ 7 (by decide), 1, rfl, by decide⟩,
    ⟨denotes_literal _ _ _ (by decide), by rintro ⟨d, hd, hl⟩; cases hd; revert hl; decide⟩,
    start_denotes.1, by rintro ⟨d, hd, -⟩; cases hd⟩

theorem witness_PopFollowsItsRule : State.reset.stack = [] ∧ (start.stack = [9] ∧ InvalidWord 32776) ∧
    (start.stack = [9] ∧ ¬ InvalidWord 32775) :=
  ⟨rfl, ⟨rfl, start_denotes.2.2.2.2.1⟩, rfl, start_denotes.2.2.2.2.2.2.1⟩

/-- A narrow cell, a wide cell into memory, and a wide cell into a register under both settings. -/
theorem witness_RmemFollowsItsRule : InvalidWord 32776 ∧ (Denotes start 5 5 ∧ InvalidWord 65535) ∧
    (Denotes start 5 5 ∧ ¬ InvalidWord 32775 ∧ (start.cell 5).toNat ≤ 32767) ∧
    (Denotes start 6 6 ∧ ¬ InvalidWord 0 ∧ (0 : Word16).toNat ≤ 32767) ∧
    (Denotes start 6 6 ∧ ¬ InvalidWord 32775 ∧ 32768 ≤ (32775 : Word16).toNat ∧
      32767 < (start.cell 6).toNat ∧ start.params.wideStore = .fault) ∧
    (Denotes (masking start) 6 6 ∧ 32767 < ((masking start).cell 6).toNat ∧
      (masking start).params.wideStore = .mask15) := by
  have h := start_denotes
  refine ⟨h.2.2.2.2.1, ⟨denotes_literal _ _ _ (by decide), h.2.2.2.2.2.1⟩,
    ⟨denotes_literal _ _ _ (by decide), h.2.2.2.2.2.2.1, by decide⟩,
    ⟨denotes_literal _ _ _ (by decide), h.2.2.2.2.2.2.2, by decide⟩,
    ⟨denotes_literal _ _ _ (by decide), h.2.2.2.2.2.2.1, by decide, by decide, rfl⟩,
    denotes_literal _ _ _ (by decide), by decide, rfl⟩

theorem witness_WmemFollowsItsRule : InvalidWord 32776 ∧ (Denotes start 32767 32767 ∧ InvalidWord 65535) ∧
    (Denotes start 32768 12 ∧ Denotes start 32775 30000) :=
  have h := start_denotes
  ⟨h.2.2.2.2.1, ⟨h.2.1, h.2.2.2.2.2.1⟩, h.2.2.1, h.2.2.2.1⟩

/-- The clauses of `BinaryRule`: EQ, GT, ADD, MULT, AND and OR. -/
theorem witness_BinaryRule : InvalidWord 32776 ∧ (Denotes start 32768 12 ∧ InvalidWord 65535) ∧
    (Denotes start 32768 12 ∧ Denotes start 32767 32767 ∧ InvalidWord 32776) ∧
    (Denotes start 0 0 ∧ Denotes start 32775 30000 ∧ ¬ InvalidWord 32775) :=
  have h := start_denotes
  ⟨h.2.2.2.2.1, ⟨h.2.2.1, h.2.2.2.2.2.1⟩, ⟨h.2.2.1, h.2.1, h.2.2.2.2.1⟩, h.1, h.2.2.2.1, h.2.2.2.2.2.2.1⟩

/-- As for `BinaryRule`, with a zero divisor (register 1 holds 0) and with a divisor of 1. -/
theorem witness_ModFollowsItsRule : InvalidWord 32776 ∧ (Denotes start 32768 12 ∧ InvalidWord 65535) ∧
    (Denotes start 32768 12 ∧ Denotes start 32769 0 ∧ (0 : Word15).toNat = 0) ∧
    (Denotes start 32768 12 ∧ Denotes start 1 1 ∧ (1 : Word15).toNat ≠ 0 ∧ InvalidWord 32776) ∧
    (Denotes start 32775 30000 ∧ Denotes start 32767 32767 ∧ (32767 : Word15).toNat ≠ 0 ∧
      ¬ InvalidWord 32775) := by
  have h := start_denotes
  exact ⟨h.2.2.2.2.1, ⟨h.2.2.1, h.2.2.2.2.2.1⟩, ⟨h.2.2.1, denotes_register _ _ 1 (by decide), by decide⟩,
    ⟨h.2.2.1, denotes_literal _ _ _ (by decide), by decide, h.2.2.2.2.1⟩,
    h.2.2.2.1, h.2.1, by decide, h.2.2.2.2.2.2.1⟩

/-- The conditions 0 and not 0, each with a valid and an invalid target. -/
theorem witness_JumpsFollowTheirRules : InvalidWord 32776 ∧ Denotes start 32767 32767 ∧
    (Denotes start 32768 12 ∧ (12 : Word15).toNat ≠ 0 ∧ InvalidWord 65535) ∧
    (Denotes start 32769 0 ∧ (0 : Word15).toNat = 0 ∧ Denotes start 32775 30000) :=
  have h := start_denotes
  ⟨h.2.2.2.2.1, h.2.1, ⟨h.2.2.1, by decide, h.2.2.2.2.2.1⟩, denotes_register _ _ 1 (by decide), by decide,
    h.2.2.2.1⟩

/-- A full stack; room with an invalid target; room with a valid one. For CallFollowsItsRule and
RetUndoesCall. -/
theorem witness_CallFollowsItsRule_RetUndoesCall : StackFull (shallow 1 start) ∧
    (¬ StackFull start ∧ InvalidWord 32776) ∧ (¬ StackFull start ∧ Denotes start 32775 30000) := by
  have hroom : ¬ StackFull start := by rintro ⟨d, hd, -⟩; cases hd
  exact ⟨⟨1, rfl, by decide⟩, ⟨hroom, start_denotes.2.2.2.2.1⟩, hroom, start_denotes.2.2.2.1⟩

theorem witness_RetFollowsItsRule : State.reset.stack = [] ∧ start.stack = [9] := ⟨rfl, rfl⟩

theorem witness_OutFollowsItsRule : InvalidWord 32776 ∧ Denotes start 32775 30000 :=
  ⟨start_denotes.2.2.2.2.1, start_denotes.2.2.2.1⟩

/-- From the queue, from an empty line, from a line; the end of input; no answer. -/
theorem witness_InputPortDeliversInOrder :
    InputPort.take { queue := [7], lines := [[8]], ended := true } =
      .char 7 { queue := [], lines := [[8]], ended := true } ∧
    InputPort.take { queue := [], lines := [[], [8]], ended := false } =
      .char 10 { queue := [], lines := [[8]], ended := false } ∧
    InputPort.take { queue := [], lines := [[8, 9]], ended := false } =
      .char 8 { queue := [9, 10], lines := [], ended := false } ∧
    InputPort.take { queue := [], lines := [], ended := true } = .endOfInput ∧
    InputPort.take InputPort.empty = .noAnswer := by decide

/-- A narrow and a wide ordinary character, with an invalid, a literal and a register destination, and the
character 36 with the sentinel off. -/
theorem witness_InStoresAnOrdinaryCharacter :
    (start.preload [65]).waiting = none ∧
    (start.preload [65]).input.take = .char 65 InputPort.empty ∧ (65 : Word16).toNat ≠ 36 ∧
    (start.preload [40000]).input.take = .char 40000 InputPort.empty ∧
    32767 < (40000 : Word16).toNat ∧ (start.preload [40000]).params.wideStore = .fault ∧
    (masking (start.preload [40000])).params.wideStore = .mask15 ∧
    (plainInput (start.preload [36])).params.sentinelEnable = false := by decide

theorem witness_InSentinelSetsRegisterSeven : (start.preload [36]).waiting = none ∧
    (start.preload [36]).input.take = .char 36 InputPort.empty ∧
    (start.preload [36]).params.sentinelEnable = true ∧ (36 : Word16).toNat = 36 := by decide

theorem witness_InAtEndOfInputOrWaiting : start.waiting = none ∧ start.endInput.waiting = none ∧
    start.endInput.input.take = .endOfInput ∧ start.input.take = .noAnswer := by decide

/-- A waiting IN, and a provider with a line, one at end of input, and one that still has nothing. -/
theorem witness_WaitingInEndsAsIfAnsweredAtOnce : start.runState = .running ∧ start.waiting = none ∧
    start.input.take = .noAnswer ∧
    exec (.inp 32768) start = .next { start with ip := 2, waiting := some { addr := 0, dest := 32768 } } ∧
    InputPort.take { queue := [], lines := [[65]], ended := false } =
      .char 65 { queue := [10], lines := [], ended := false } ∧
    InputPort.take { queue := [], lines := [], ended := true } = .endOfInput ∧
    InputPort.take InputPort.empty = .noAnswer :=
  ⟨rfl, rfl, rfl, rfl, rfl, rfl, rfl⟩

/-- For EveryStepAnswersANextState: a step that ends, and one that leaves an IN waiting. -/
theorem witness_EveryStepAnswersANextState :
    after (program [21]) (fun t => t.waiting == none) = true ∧
    after (program [20, 32768]) (fun t => t.waiting == some { addr := 0, dest := 32768 }) = true := by decide

/-- R35: the step port returns nothing while IN waits, and the registers once it has ended. -/
theorem test_step_port : (stepPort (program [20, 32768])).map Prod.fst = some .inProgress ∧
    (stepPort (withScript [120] [20, 32768])).map Prod.fst =
      some (.ended { runState := .running, ip := 2, regs := RegFile.zero.set 0 120 }) := by decide

/-- For the frames: `ADD R1, R0, 1` completes, and changes neither register 2 nor cell 5. -/
theorem witness_frames : (∃ t, exec (.add 32769 32768 1) start = .next t) ∧
    (∀ d, destWord (.add 32769 32768 1) = some d → d.toNat ≠ 32768 + (2 : Fin 8).val) ∧
    (∀ d, destWord (.add 32769 32768 1) = some d → d.toNat ≠ (5 : Word15).toNat) := by
  refine ⟨⟨_, rfl⟩, fun d h => ?_, fun d h => ?_⟩ <;> cases h <;> decide

/-- For OtherCellsAreKept: `WMEM R0, 1` writes cell 12 and keeps cell 5. -/
theorem witness_OtherCellsAreKept_wmem : (∃ t, exec (.wmem 32768 1) start = .next t) ∧
    ∀ a b y, Instr.wmem 32768 1 = .wmem a b → Denotes start a y → y ≠ 5 := by
  refine ⟨⟨_, rfl⟩, fun a b y h hd => ?_⟩
  cases h
  rw [hd.unique start_denotes.2.2.1]
  decide

/-- For OtherRegistersAreKept: `IN R0` of the character 36 and register 7, with the sentinel off. -/
theorem witness_OtherRegistersAreKept_in :
    (∃ t, exec (.inp 32768) (plainInput (start.preload [36])) = .next t) ∧
    (∀ d, destWord (.inp 32768) = some d → d.toNat ≠ 32768 + (7 : Fin 8).val) ∧
    ∀ a, Instr.inp 32768 = .inp a → (7 : Fin 8) = 7 →
      (plainInput (start.preload [36])).params.sentinelEnable = false := by
  refine ⟨⟨_, rfl⟩, fun d h => ?_, fun _ _ _ => rfl⟩
  cases h; decide

/-- For StackChangesOnlyByItsInstructions, InstructionPointerWriters and StatusChangesOnlyByErrorOrHalt: a
CALL, a RET from an empty stack and an instruction that raises an error all answer a next state. -/
theorem witness_exec_next : (∃ t, exec (.call 5) start = .next t) ∧ (∃ t, exec .ret State.reset = .next t) ∧
    (∃ t, exec (.pop 32776) start = .next t) := ⟨⟨_, rfl⟩, ⟨_, rfl⟩, ⟨_, rfl⟩⟩

/-- For PortsChangeOnlyByInAndOut: neither OUT nor IN. -/
theorem witness_PortsChangeOnlyByInAndOut :
    (∃ t, exec .noop start = .next t) ∧ (∀ a, Instr.noop ≠ .out a) ∧ ∀ a, Instr.noop ≠ .inp a :=
  ⟨⟨_, rfl⟩, fun a => by simp, fun a => by simp⟩

/-- For OneStepWritesAtMostOneSlot and StepKeepsInvariant: a step of a state that has the invariant. -/
theorem witness_step : (program [1, 32768, 5]).Inv ∧ ∃ t, step (program [1, 32768, 5]) = .next t :=
  ⟨⟨wf_setCells _ _ _ Memory.wf_nil, by decide, fun _ => by decide, fun _ => rfl,
    fun d hd => by revert hd; simp [program, State.reset, State.loaded, Params.default, State.setCells]⟩,
    ⟨_, rfl⟩⟩

theorem witness_ErrorLeavesOnlyPartialEffects : (program [17, 40000]).runState = .running ∧
    after (program [17, 40000]) (fun t => t.runState == .error) = true := by decide

/-- HLT, and RET with an empty stack. -/
theorem witness_HaltedOnlyByHltOrEmptyRet : (program [0]).runState = .running ∧
    after (program [0]) (fun t => t.runState == .halted) = true ∧
    after (program [18]) (fun t => t.runState == .halted) = true := by decide

theorem witness_WellFormedNeverRaisesInvalidOperand : (Instr.mod 32775 32768 32769).wellFormed = true ∧
    start.cause ≠ .invalidOperand ∧ ∃ t, exec (.mod 32775 32768 32769) start = .next t :=
  ⟨by decide, by decide, _, rfl⟩

/-- Two states of a run: after the load, and after a host write. -/
theorem witness_ReachableStatesHaveInvariant : Reachable State.reset ∧ Reachable (State.reset.setReg 7 3) :=
  have h : Reachable State.reset := .load (ps := Params.default) (image := []) (patches := []) rfl
  ⟨h, .event (.host (.writeReg 7 3)) h rfl⟩

/-- A load and a host write in a terminal status. -/
theorem witness_OnlyALoadLeavesATerminalStatus : start.withHalted.Terminal ∧
    applyEvent (.load [] []) start.withHalted = some State.reset ∧
    applyEvent (.host (.writeMem 5 8)) start.withHalted = some (start.withHalted.setCell 5 8) :=
  ⟨.inl rfl, rfl, rfl⟩

theorem witness_HostOperations : (start.waitAt 0 5).waiting ≠ none ∧ start.waiting = none := by decide

/-- An accepted load with a patch inside the image, one past it, and one that a later patch overrides. For
LoadBuildsTheState and PreloadedScriptIsDeliveredFirst. -/
theorem witness_LoadBuildsTheState :
    (∃ s, load Params.default [0, 128] [⟨0, 21⟩, ⟨32767, 65535⟩, ⟨0, 22⟩] = .ok s) ∧
    (∀ p ∈ [Patch.mk 0 21, ⟨32767, 65535⟩, ⟨0, 22⟩], p.addr ≠ (1 : Word15).toNat) ∧
    [Patch.mk 0 21, ⟨32767, 65535⟩, ⟨0, 22⟩] = [⟨0, 21⟩, ⟨32767, 65535⟩] ++ ⟨0, 22⟩ :: [] := by
  exact ⟨⟨_, rfl⟩, by decide, rfl⟩

/-- The sizes and patches of each clause, at the ends of the ranges. -/
theorem witness_LoadRejections : 65536 < (List.replicate 65537 (0 : Byte)).length ∧
    ((List.replicate 65535 (0 : Byte)).length ≤ 65536 ∧ (List.replicate 65535 (0 : Byte)).length % 2 = 1) ∧
    ((List.replicate 65536 (0 : Byte)).length ≤ 65536 ∧ (List.replicate 65536 (0 : Byte)).length % 2 = 0) ∧
    (∃ p ∈ [Patch.mk 32768 0], 32768 ≤ p.addr ∨ 65536 ≤ p.value) ∧
    (∃ p ∈ [Patch.mk 0 65536], 32768 ≤ p.addr ∨ 65536 ≤ p.value) ∧
    (∀ p ∈ [Patch.mk 32767 65535], p.addr < 32768 ∧ p.value < 65536) := by
  simp only [List.length_replicate]
  decide

/-- Two memories with the same cells, one not in canonical form; and one with every cell 0. -/
theorem witness_ListingDependsOnCellsAlone_ZeroMemoryListsAsHlt : (∀ x, Memory.cell [(3, 0)] x = Memory.cell [] x) ∧
    ∀ x, Memory.cell [] x = 0 := by
  have h0 : ∀ x, Memory.cell [] x = 0 := fun x => by simp [Memory.cell, unlistedByte, wordOfBytes]
  refine ⟨fun x => ?_, h0⟩
  simp [Memory.cell, Memory.byteAt, unlistedByte]

/-- An undefined opcode at the head of a listing, an instruction with a decode error there, and an opcode at
32767 whose words do not fit, after 32767 zero words (L2-98). -/
theorem witness_ListingEntriesAreSound :
    (∃ after, disassemble (program [22]).mem = [] ++ Entry.data 0 22 :: after) ∧
    (∃ after, disassemble (program [1, 32776, 5]).mem =
      [] ++ Entry.instr 0 [1, 32776, 5] "SET" [.invalid 32776, .hex 5] true :: after) ∧
    ∃ before, disassemble (State.reset.setCell 32767 1).mem = before ++ Entry.data 32767 1 :: [] := by
  refine ⟨?_, ?_, ?_⟩
  · rw [disassemble, show memWords = 32767 + 1 from rfl, passFrom_of_undefined (by decide) (by decide)]
    exact ⟨_, rfl⟩
  · rw [disassemble, show memWords = 32767 + 1 from rfl,
      passFrom_of_fits (row := ⟨1, "SET", 3, false⟩) (by decide) (by decide) (by decide)]
    exact ⟨_, rfl⟩
  · have hz : ∀ q, 0 ≤ q → q < 0 + 32767 → Memory.cellAt (State.reset.setCell 32767 1).mem q = 0 := by
      intro q _ hq
      have hne : (BitVec.ofNat 15 q : Word15) ≠ 32767 := by
        intro h
        have := congrArg BitVec.toNat h
        simp at this
        omega
      have hcell : (State.reset.setCell 32767 1).cell (BitVec.ofNat 15 q) = 0 := by
        rw [cell_setCell, if_neg hne]
        simp [State.cell, State.reset, State.loaded, Memory.cell, unlistedByte, wordOfBytes]
      exact hcell
    obtain ⟨before, h⟩ := passFrom_of_zeros (fuel := 1) (by decide) hz
    refine ⟨before, ?_⟩
    rw [disassemble, show memWords = 1 + 32767 from rfl, h,
      passFrom_of_not_fits (row := ⟨1, "SET", 3, false⟩) (by decide) (by decide) (by decide)]
    rfl

/-- OUT, and another row with a word of each class at the ends of the ranges. -/
theorem witness_TokenRule : rowOf 19 = some ⟨19, "OUT", 2, true⟩ ∧ (19 : Word16).toNat = 19 ∧
    rowOf 1 = some ⟨1, "SET", 3, false⟩ ∧ (1 : Word16).toNat ≠ 19 ∧ (32767 : Word16).toNat ≤ 32767 ∧
    (32768 : Word16).toNat = 32768 + (0 : Fin 8).val ∧ (32775 : Word16).toNat = 32768 + (7 : Fin 8).val ∧
    32776 ≤ (32776 : Word16).toNat := by decide

end Sys2Proof.Tests
end

section
/-! PROOFS. The statements of the family `10_state.md`: the invariant, the frames of the state, the host
port, the events, the trace, the reset state and the status word. -/

namespace Sys2Proof.Machine

/-! ### The invariant under the updates of the state

A write to a register, to `ip`, to the output or to the input port touches nothing that the invariant speaks
of, so each of its clauses is the same clause. -/

theorem State.Inv.advance {s : State} (h : s.Inv) (n : Nat) : (s.advance n).Inv := { h with }
theorem State.Inv.setReg {s : State} (h : s.Inv) (i : Fin 8) (v : Word15) : (s.setReg i v).Inv := { h with }
theorem State.Inv.withIp {s : State} (h : s.Inv) (x : Word15) : (s.withIp x).Inv := { h with }
theorem State.Inv.withOutput {s : State} (h : s.Inv) (v : Word15) : (s.withOutput v).Inv := { h with }
theorem State.Inv.withInput {s : State} (h : s.Inv) (q : InputPort) : State.Inv { s with input := q } :=
  { h with }

/-- A cell write keeps memory canonical, and touches nothing else. -/
theorem State.Inv.setCell {s : State} (h : s.Inv) (x : Word15) (v : Word16) : (s.setCell x v).Inv :=
  { h with mem_wf := Memory.wf_setCell h.mem_wf x v }

/-- A stack that is no longer than the bound. -/
theorem State.Inv.withStack {s : State} (h : s.Inv) {st : List Word15}
    (hst : ∀ d, s.params.stackDepth = some d → st.length ≤ d) : (s.withStack st).Inv :=
  { h with stack_bounded := hst }

/-- One entry fits on a stack that is not full (R30). -/
theorem State.Inv.pushed {s : State} (h : s.Inv) (hroom : ¬ StackFull s) (v : Word15) :
    (s.withStack (v :: s.stack)).Inv :=
  h.withStack fun d hd => Nat.lt_of_not_le fun hle => hroom ⟨d, hd, hle⟩

/-- Without its top entry the stack is shorter. -/
theorem State.Inv.popped {s : State} (h : s.Inv) {v : Word15} {rest : List Word15}
    (hs : s.stack = v :: rest) : (s.withStack rest).Inv :=
  h.withStack fun d hd => by
    have hle := h.stack_bounded d hd
    rw [hs, List.length_cons] at hle
    omega

/-- A request that is answered leaves no step in progress. -/
theorem State.Inv.answered {s : State} (h : s.Inv) (rest : InputPort) : (s.answered rest).Inv :=
  { h with waiting_running := fun hw => absurd rfl hw }

/-- A wait begins, or goes on, in a running machine. -/
theorem State.Inv.waitAt {s : State} (h : s.Inv) (hr : s.runState = .running) (p : Word15) (a : Word16) :
    (s.waitAt p a).Inv :=
  { h with waiting_running := fun _ => hr }

/-- A running machine that halts has no cause (R42), and no step of it goes on. -/
theorem State.Inv.withHalted {s : State} (h : s.Inv) (hr : s.runState = .running) (hw : s.waiting = none) :
    s.withHalted.Inv := by
  have hne : s.runState ≠ .error := by simp [hr]
  have hc : s.cause = .none := by simpa [hr] using h.error_iff_cause
  exact { h with
    error_iff_cause := by simp [hc]
    fault_clear := fun _ => h.fault_clear hne
    waiting_running := fun hn => absurd hw hn }

/-- An error is entered with a cause, and by a step that ends (R119, R274). -/
theorem State.Inv.enterError {s : State} (h : s.Inv) (hw : s.waiting = none) {e : Raise}
    (he : e.cause ≠ .none) (p : Word15) : (enterError p e s).Inv :=
  { h with
    error_iff_cause := by simp [he]
    fault_clear := fun hn => absurd rfl hn
    waiting_running := fun hn => absurd hw hn }

/-- The state that a load sets has the invariant when its memory is canonical (R304). -/
theorem State.Inv.loaded (ps : Params) {m : Memory} (hm : Memory.wf m) : (State.loaded ps m).Inv where
  mem_wf := hm
  error_iff_cause := by simp [State.loaded]
  fault_clear := fun _ => ⟨rfl, rfl⟩
  waiting_running := fun _ => rfl
  stack_bounded := fun d _ => Nat.zero_le d

/-! ### The invariant over a step -/

/-- What an instruction has done before its last effect keeps the invariant. -/
theorem Pre.inv {i : Instr} {s u : State} (hp : Pre i s u) (h : s.Inv) : u.Inv := by
  cases hp with
  | plain => exact h.advance _
  | popped a v rest hi hs => exact (h.advance _).popped hs
  | pushed a hi hroom => exact (h.advance _).pushed hroom _
  | took a ch rest hi hq => exact (h.advance _).answered rest
  | ended a hi => exact (h.advance _).answered s.input

/-- An instruction that begins with no step in progress has none before its last effect. -/
theorem Pre.waiting_none {i : Instr} {s u : State} (hp : Pre i s u) (hw : s.waiting = none) :
    u.waiting = none := by
  cases hp with
  | took | ended => rfl
  | plain | popped | pushed => exact hw

/-- NONE is no cause that an instruction raises (R270). -/
theorem ne_none_of_mem_mayRaise {i : Instr} {c : Cause} (h : c ∈ mayRaise i) : c ≠ .none := by
  rintro rfl
  cases i <;> simp [mayRaise] at h

/-- An instruction of a running machine keeps the invariant. -/
theorem exec_keeps_inv {i : Instr} {s t : State} (h : s.Inv) (hr : s.runState = .running)
    (hw : s.waiting = none) (he : exec i s = .next t) : t.Inv := by
  cases exec_effect he with
  | raised u e hp hc _ => exact (hp.inv h).enterError (hp.waiting_none hw) (ne_none_of_mem_mayRaise hc) _
  | storedCell u d x v hp => exact (hp.inv h).setCell x v
  | storedReg u d r v hp => exact (hp.inv h).setReg r v
  | wroteCell a b x v => exact (h.advance _).setCell x v
  | sentinel a ch rest => exact ((h.advance _).answered rest).setReg 7 25734
  | pushed a v hi hroom => exact (h.advance _).pushed hroom v
  | quiet => exact h.advance _
  | jumped u w x hp => exact (hp.inv h).withIp x
  | returned x rest hi hs => exact ((h.advance _).popped hs).withIp x
  | halted => exact (h.advance _).withHalted hr hw
  | emitted a v => exact (h.advance _).withOutput v
  | waited a => exact (h.advance _).waitAt hr s.ip a

/-- Asking the input port in a running machine keeps the invariant. -/
theorem AskEffect.inv {p : Word15} {a : Word16} {s t : State} (ha : AskEffect p a s t) (h : s.Inv)
    (hr : s.runState = .running) : t.Inv := by
  cases ha with
  | waited => exact h.waitAt hr p a
  | ended => exact (h.answered s.input).enterError rfl (by simp) p
  | raised ch rest e hq hc => exact (h.answered rest).enterError rfl hc p
  | storedCell ch rest x => exact (h.answered rest).setCell x ch
  | storedReg ch rest r v => exact (h.answered rest).setReg r v

/-- Settles O45: each of the four things a step can be keeps every clause of the invariant. -/
theorem stepKeepsInvariant : Obligations.StepKeepsInvariant := by
  intro s t h hstep
  cases step_effect hstep with
  | unchanged _ ht => exact ht ▸ h
  | executed i hr hw _ he => exact exec_keeps_inv h hr hw he
  | undefined _ hw _ ht => exact ht ▸ h.enterError hw (by simp) s.ip
  | resumed w hr _ ha => exact ha.inv h hr

/-! ### Every step answers -/

/-- Asking the input port always answers a next state. -/
theorem askInput_next (p : Word15) (a : Word16) (s : State) : ∃ t, askInput p a s = .next t := by
  rcases askInput_cases p a s with ⟨ch, rest, -, e⟩ | ⟨-, e⟩ | ⟨-, e⟩ <;> rw [e]
  · exact endStep_next p _
  · exact ⟨_, rfl⟩
  · exact ⟨_, rfl⟩

/-- An instruction always answers a next state: its rule ends, or IN asks the port. -/
theorem exec_next (i : Instr) (s : State) : ∃ t, exec i s = .next t := by
  cases i with
  | hlt | noop => exact ⟨_, rfl⟩
  | inp a => exact askInput_next s.ip a (s.advance 2)
  | _ => exact endStep_next _ _

/-- A step of any state answers a next state. -/
theorem step_next (s : State) : ∃ t, step s = .next t := by
  unfold step
  split
  · exact ⟨s, rfl⟩
  · exact ⟨s, rfl⟩
  · split
    · next w _ => exact askInput_next w.addr w.dest s
    · split
      · next i _ => exact exec_next i s
      · exact ⟨_, rfl⟩

/-- Settles O9: `step_next` gives the state, and the step port reads its reply from it. -/
theorem everyStepAnswersANextState : Obligations.EveryStepAnswersANextState := by
  intro s
  obtain ⟨t, ht⟩ := step_next s
  exact ⟨t, ht, fun hw => ⟨_, stepPort_of_ended ht hw, rfl, rfl, fun _ => rfl⟩, stepPort_of_waiting ht⟩

/-! ### Frames -/

/-- Settles O35: of the effects only a register write reaches a register, and it goes to the destination
word's register or, by the sentinel, to register 7. -/
theorem otherRegistersAreKept : Obligations.OtherRegistersAreKept := by
  intro i s t r he hdest hsent
  cases exec_effect he with
  | raised u e hp | storedCell u d x v hp | jumped u w x hp => exact hp.reg r
  | storedReg u d r' v hp hd hr =>
    have hne : r' ≠ r := fun h => hdest d hd (h ▸ hr)
    rw [reg_setReg, if_neg hne, hp.reg]
  | sentinel a ch rest hi hq hen =>
    have hne : (7 : Fin 8) ≠ r := fun h => by simp [hsent a hi h.symm] at hen
    rw [reg_setReg, if_neg hne]
    rfl
  | wroteCell | pushed | quiet | returned | halted | emitted | waited => rfl

/-- Before its last effect an instruction changes the stack only as POP or as CALL. -/
theorem Pre.stack_change {i : Instr} {s u : State} (hp : Pre i s u) :
    u.stack = s.stack ∨
    ((∃ a, i = .push a ∨ i = .call a) ∧ ∃ v, u.stack = v :: s.stack) ∨
    ((i = .ret ∨ ∃ a, i = .pop a) ∧ ∃ v, s.stack = v :: u.stack) := by
  rcases hp.stack with h | ⟨a, hi, hv⟩ | ⟨a, hi, -, hs⟩
  · exact .inl h
  · exact .inr (.inr ⟨.inr ⟨a, hi⟩, hv⟩)
  · exact .inr (.inl ⟨⟨a, .inr hi⟩, _, hs⟩)

/-- Settles O37: PUSH and RET change the stack by their last effect, CALL and POP before it. -/
theorem stackChangesOnlyByItsInstructions : Obligations.StackChangesOnlyByItsInstructions := by
  intro i s t he
  cases exec_effect he with
  | raised u e hp | storedCell u d x v hp | storedReg u d r v hp | jumped u w x hp =>
    exact hp.stack_change
  | pushed a v hi => exact .inr (.inl ⟨⟨a, .inl hi⟩, v, rfl⟩)
  | returned x rest hi hs => exact .inr (.inr ⟨.inl hi, x, hs⟩)
  | wroteCell | sentinel | quiet | halted | emitted | waited => exact .inl rfl

/-- Settles O38: `ip` is the advanced one until a jump or RET's return writes it. -/
theorem instructionPointerWriters : Obligations.InstructionPointerWriters := by
  intro i s t he
  cases exec_effect he with
  | raised u e hp | storedCell u d x v hp | storedReg u d r v hp => exact .inl hp.ip
  | jumped u w x hp hi hm hd => exact .inr ⟨hi, .inl ⟨w, hm, hd⟩⟩
  | returned x rest hi hs => exact .inr ⟨by rw [hi]; rfl, .inr ⟨hi, hs⟩⟩
  | wroteCell | sentinel | pushed | quiet | halted | emitted | waited => exact .inl (advance_ip_eq s _)

/-- Settles O39: only a raise and a halt write `STATE`, and only a raise writes the other three. -/
theorem statusChangesOnlyByErrorOrHalt : Obligations.StatusChangesOnlyByErrorOrHalt := by
  intro i s t he
  cases exec_effect he with
  | raised u e hp hc => exact .inl ⟨rfl, hc, rfl⟩
  | storedCell u d x v hp | storedReg u d r v hp | jumped u w x hp =>
    obtain ⟨hstate, hcause, hword, hpc⟩ := hp.status
    exact .inr ⟨hcause, hword, hpc, .inl hstate⟩
  | halted hi => exact .inr ⟨rfl, rfl, rfl, .inr ⟨rfl, hi⟩⟩
  | wroteCell | sentinel | pushed | quiet | returned | emitted | waited =>
    exact .inr ⟨rfl, rfl, rfl, .inl rfl⟩

/-! ### The host port -/

theorem betweenSteps_iff (s : State) : s.betweenSteps = true ↔ s.waiting = none :=
  Option.isNone_iff_eq_none

/-- Between steps the host port is served (R34, R60). -/
theorem hostOp_of_between {s : State} (h : s.waiting = none) (op : HostOp) :
    hostOp op s = some (hostEffect op s) :=
  if_pos ((betweenSteps_iff s).2 h)

/-- While a step is in progress it is not (R60, R124). -/
theorem hostOp_of_waiting {s : State} (h : s.waiting ≠ none) (op : HostOp) : hostOp op s = none :=
  if_neg (mt (betweenSteps_iff s).1 h)

/-- The state an operation of the host port leaves: the same one, or with one register or one cell
written. -/
theorem hostEffect_state (op : HostOp) (s : State) :
    (hostEffect op s).2 = s ∨ (∃ i v, (hostEffect op s).2 = s.setReg i v) ∨
      ∃ a v, (hostEffect op s).2 = s.setCell a v := by
  cases op with
  | writeReg i v => exact .inr (.inl ⟨i, v, rfl⟩)
  | writeMem a v => exact .inr (.inr ⟨a, v, rfl⟩)
  | readReg | readMem | readIp | readStatus => exact .inl rfl

/-- Settles O49: between steps each operation is its effect, and a write is read back by the rules of
register and cell writes. -/
theorem hostOperations : Obligations.HostOperations := by
  intro s
  refine ⟨hostOp_of_waiting, fun hw => ?_⟩
  have hop := hostOp_of_between hw
  refine ⟨fun i => hop _, fun a => hop _, hop _, hop _, fun i v => ?_, fun a v => ?_⟩
  · exact ⟨s.setReg i v, hop _, rfl, by simp, fun j hj => by simp [hj.symm]⟩
  · exact ⟨s.setCell a v, hop _, rfl, by simp, fun x hx => by simp [hx]⟩

/-! ### Events -/

/-- What an event can be to the state it leaves. -/
inductive EventEffect (s t : State) : Event → Prop where
  | stepped (h : step s = .next t) : EventEffect s t .step
  | hosted (op : HostOp) (ht : t = (hostEffect op s).2) : EventEffect s t (.host op)
  | loaded (image : List Byte) (patches : List Patch) (h : load s.params image patches = .ok t) :
      EventEffect s t (.load image patches)
  | listed (ht : t = s) : EventEffect s t .disassemble
  | supplied (e : Event) (q : InputPort) (ht : t = { s with input := q }) : EventEffect s t e

/-- What an event that the arbiter lets in can do. -/
theorem applyEvent_effect {e : Event} {s t : State} (h : applyEvent e s = some t) : EventEffect s t e := by
  cases e with
  | step =>
    obtain ⟨u, hu⟩ := step_next s
    rw [applyEvent_step hu] at h
    cases h
    exact .stepped hu
  | host op =>
    by_cases hw : s.waiting = none
    · simp only [applyEvent, hostOp_of_between hw] at h
      cases h
      exact .hosted op rfl
    · simp [applyEvent, hostOp_of_waiting hw] at h
  | load image patches =>
    simp only [applyEvent] at h
    split at h
    · split at h
      · next hl => cases h; exact .loaded image patches hl
      · cases h
    · cases h
  | disassemble =>
    simp only [applyEvent] at h
    split at h
    · cases h; exact .listed rfl
    · cases h
  | preload | line | endOfInput => cases h; exact .supplied _ _ rfl

/-- A load that is not rejected leaves a state with the invariant. -/
theorem load_inv {ps : Params} {image : List Byte} {patches : List Patch} {s : State}
    (h : load ps image patches = .ok s) : s.Inv := by
  obtain ⟨hsize, -, -, rfl⟩ := load_ok h
  exact .loaded ps (wf_applyPatches patches _ (wf_fillMemory hsize))

/-- An operation of the host port keeps the invariant. -/
theorem hostEffect_keeps_inv {s : State} (h : s.Inv) (op : HostOp) : (hostEffect op s).2.Inv := by
  rcases hostEffect_state op s with e | ⟨i, v, e⟩ | ⟨a, v, e⟩ <;> rw [e]
  · exact h
  · exact h.setReg i v
  · exact h.setCell a v

/-- Every event that the arbiter lets in keeps the invariant. -/
theorem applyEvent_keeps_inv {e : Event} {s t : State} (h : s.Inv) (he : applyEvent e s = some t) :
    t.Inv := by
  cases applyEvent_effect he with
  | stepped hs => exact stepKeepsInvariant s t h hs
  | hosted op ht => exact ht ▸ hostEffect_keeps_inv h op
  | loaded _ _ hl => exact load_inv hl
  | listed ht => exact ht ▸ h
  | supplied _ q ht => exact ht ▸ h.withInput q

/-- Settles O47, by induction on how the state is reached. -/
theorem reachableStatesHaveInvariant : Obligations.ReachableStatesHaveInvariant := by
  intro s h
  induction h with
  | load hl => exact load_inv hl
  | event e _ he ih => exact applyEvent_keeps_inv ih he

/-- Settles O48: in a terminal status a step does nothing, and the other events write registers, memory or
the input port. -/
theorem onlyALoadLeavesATerminalStatus : Obligations.OnlyALoadLeavesATerminalStatus := by
  intro e s t hterm he
  cases applyEvent_effect he with
  | loaded image patches => exact .inl ⟨image, patches, rfl⟩
  | stepped h =>
    rw [step_of_terminal hterm] at h
    cases h
    exact .inr ⟨rfl, rfl, rfl, rfl, rfl, rfl, rfl⟩
  | hosted op ht =>
    rcases hostEffect_state op s with hs | ⟨i, v, hs⟩ | ⟨a, v, hs⟩ <;> rw [ht, hs] <;>
      exact .inr ⟨rfl, rfl, rfl, rfl, rfl, rfl, rfl⟩
  | listed ht | supplied _ q ht => exact .inr (ht ▸ ⟨rfl, rfl, rfl, rfl, rfl, rfl, rfl⟩)

/-! ### The instruction at `ip` -/

/-- The decoder reads back the instruction whose words stand at `ip` (R80, R114). -/
theorem AtInstruction.fetchInstr {s : State} {i : Instr} (h : AtInstruction s i) :
    s.fetchInstr = some i := by
  obtain ⟨-, -, hwords⟩ := h
  refine decodeWith_encode i _ fun k w hk => ?_
  have hlt : k < (encode i).length := (List.getElem?_eq_some_iff.1 hk).1
  have hlen : (encode i).length ≤ 4 := by
    obtain ⟨row, -, -, hrow, -, hle⟩ := Laws.TableRow.of_instr i
    omega
  exact Option.some.inj ((hwords ⟨k, by omega⟩ hlt).trans hk)

/-- A step runs the instruction whose words stand at `ip` (R112, R116). -/
theorem AtInstruction.step_eq {s : State} {i : Instr} (h : AtInstruction s i) : step s = exec i s := by
  have hf := h.fetchInstr
  obtain ⟨hr, hw, -⟩ := h
  simp only [step, hr, hw, hf]

/-- Its trace is the decoder's record (R115). -/
theorem AtInstruction.trace_eq {s : State} {i : Instr} (h : AtInstruction s i) :
    s.trace = some (decodedRecord s.ip i) := by
  have hf := h.fetchInstr
  obtain ⟨hr, hw, -⟩ := h
  simp only [State.trace, hr, hw, hf, Option.map_some]

/-- Settles O10: the fields of the decoder's record are what the trace must present. -/
theorem tracePresentsDecodedInstruction : Obligations.TracePresentsDecodedInstruction :=
  fun _ _ h => ⟨_, h.trace_eq, rfl, rfl, rfl, rfl, rfl, rfl⟩

/-! ### The reset state and the status word -/

/-- Settles O46: memory with no entry is canonical. -/
theorem resetHasInvariant : Obligations.ResetHasInvariant :=
  .loaded Params.default Memory.wf_nil

/-- The reset state stands at an HLT, since every cell is 0 (R307). -/
theorem reset_atInstruction : AtInstruction State.reset .hlt := by
  refine ⟨rfl, rfl, ?_⟩
  decide

/-- Settles O54: the first step runs the HLT that the zero fill gives. -/
theorem emptyImageHaltsAtOnce : Obligations.EmptyImageHaltsAtOnce :=
  ⟨rfl, reset_atInstruction.step_eq⟩

/-- The status word is the number its two fields make (R27). -/
theorem statusWord_toNat (s : State) :
    s.statusWord.toNat = 4 * s.cause.code.toNat + s.runState.code.toNat := by
  have hstate := s.runState.code.isLt
  rw [State.statusWord, BitVec.toNat_append, BitVec.toNat_append, Nat.shiftLeft_eq, Nat.mul_comm,
    ← Nat.two_pow_add_eq_or_of_lt hstate]
  simp

/-- Settles O50: bits 1 to 0 and bits 4 to 2 are the remainder and the quotient by 4. -/
theorem statusWordLayout : Obligations.StatusWordLayout := by
  intro s
  have hstate : s.runState.code.toNat < 4 := s.runState.code.isLt
  have hcause : s.cause.code.toNat < 8 := s.cause.code.isLt
  rw [statusWord_toNat]
  refine ⟨by omega, ?_, ?_⟩
  · rw [Nat.mul_add_mod, Nat.mod_eq_of_lt hstate]
    cases s.runState <;> rfl
  · rw [Nat.mul_add_div (by decide), Nat.div_eq_of_lt hstate]
    cases s.cause <;> rfl

end Sys2Proof.Machine
end

section
/-! PROOFS. The statements of the family `20_memory.md`: the image's bytes, words stored at `ip`, the memory
primitives, the frame of memory, and what a waiting IN shuts out. -/

namespace Sys2Proof

/-! ### Words and image bytes (R55) -/

/-- The bytes of words read back as those words, whatever bytes follow. -/
theorem wordsOfBytes_bytesOfWords_append (ws : List Word16) (rest : List Byte) :
    wordsOfBytes (bytesOfWords ws ++ rest) = ws ++ wordsOfBytes rest := by
  induction ws with
  | nil => rfl
  | cons w ws ih => simp [bytesOfWords, wordsOfBytes, Machine.wordOfBytes_low_high, ih]

theorem length_bytesOfWords (ws : List Word16) : (bytesOfWords ws).length = 2 * ws.length := by
  induction ws with
  | nil => rfl
  | cons w ws ih => simp only [bytesOfWords, List.length_cons, ih]; omega

/-! ### The decoder on an encoding (R80, R87, R88) -/

/-- No instruction is longer than four words (R80). -/
theorem length_encode_le (i : Instr) : (encode i).length ≤ 4 := by
  obtain ⟨row, -, -, harity, -, hle⟩ := Laws.TableRow.of_instr i
  exact harity ▸ hle

/-- The decoder on words that its table knows and that are long enough. -/
theorem decode_of_row {op : Word16} {ws : List Word16} {row : TableRow} {i : Instr}
    (hrow : rowOf op = some row) (hi : decodeWith (fun k => (op :: ws).getD k 0) = some i)
    (hlen : row.arity ≤ (op :: ws).length) : decode (op :: ws) = .ok (i, (op :: ws).drop row.arity) := by
  simp only [decode, hrow, hi, if_neg (Nat.not_lt.2 hlen)]

/-- Decoding the words of an instruction gives it back, with the words that follow. -/
theorem decode_encode_append (i : Instr) (ws : List Word16) : decode (encode i ++ ws) = .ok (i, ws) := by
  obtain ⟨row, hrow, -, harity, -, -⟩ := Laws.TableRow.of_instr i
  have hwords : decodeWith (fun k => (encode i ++ ws).getD k 0) = some i :=
    decodeWith_encode i _ fun k w hk => by
      have hlt : k < (encode i).length := (List.getElem?_eq_some_iff.1 hk).1
      simp [List.getD_eq_getElem?_getD, List.getElem?_append_left hlt, hk]
  have hlen : row.arity ≤ (encode i ++ ws).length := by simp [harity]
  have hdec : decode (encode i ++ ws) = .ok (i, (encode i ++ ws).drop row.arity) :=
    decode_of_row hrow hwords hlen
  rw [hdec, harity, List.drop_left]

end Sys2Proof

namespace Sys2Proof.Machine

/-- Settles O2: the bytes read back as the words of the encoding, and twice as many bytes are dropped. -/
theorem decodeBytesOfEncodedInstruction : Obligations.DecodeBytesOfEncodedInstruction := by
  intro i rest
  have hlen : 2 * i.length = (encodeBytes i).length := (length_bytesOfWords (encode i)).symm
  have hdec : decode (wordsOfBytes (encodeBytes i ++ rest)) = .ok (i, wordsOfBytes rest) := by
    rw [encodeBytes, wordsOfBytes_bytesOfWords_append, decode_encode_append]
  simp only [decodeBytes, hdec, hlen, List.drop_left]

/-! ### A waiting IN (R60, R124) -/

/-- A waiting step asks the input port again and fetches nothing (R124, R284). -/
theorem step_of_waiting {s : State} {w : InWait} (hr : s.runState = .running) (hw : s.waiting = some w) :
    step s = askInput w.addr w.dest s := by
  simp only [step, hr, hw, resumeIn]

/-- A step that waits, and waits on, is where it was. -/
theorem waitAt_of_waiting {s : State} {w : InWait} (hw : s.waiting = some w) :
    s.waitAt w.addr w.dest = s := by
  cases s; cases hw; rfl

/-- With no answer from the port, asking it leaves the wait. -/
theorem AskEffect.eq_waitAt {p : Word15} {a : Word16} {s t : State} (h : AskEffect p a s t)
    (hq : s.input.take = .noAnswer) : t = s.waitAt p a := by
  cases h with
  | waited => rfl
  | ended hq' | raised _ _ _ hq' | storedCell _ _ _ hq' | storedReg _ _ _ _ hq' => simp [hq] at hq'

/-- Any answer of the port ends the wait. -/
theorem AskEffect.waiting_none {p : Word15} {a : Word16} {s t : State} (h : AskEffect p a s t)
    (hq : s.input.take ≠ .noAnswer) : t.waiting = none := by
  cases h with
  | waited hq' => exact absurd hq' hq
  | ended | raised | storedCell | storedReg => rfl

/-- While a step is in progress the loader is not let in (R60, R124). -/
theorem applyEvent_load_of_waiting {s : State} (h : s.waiting ≠ none) (image : List Byte)
    (patches : List Patch) : applyEvent (.load image patches) s = none :=
  if_neg (mt (betweenSteps_iff s).1 h)

/-- While a step is in progress the disassembler is not let in (R39, R60). -/
theorem disassemblerPort_of_waiting {s : State} (h : s.waiting ≠ none) : disassemblerPort s = none :=
  if_neg (mt (betweenSteps_iff s).1 h)

/-- Settles O8: the step is the port's part of IN alone, and every other requester needs `waiting` empty. -/
theorem waitingStepIsUninterrupted : Obligations.WaitingStepIsUninterrupted := by
  intro s w hr hw
  have hne : s.waiting ≠ none := by simp [hw]
  obtain ⟨t, ht⟩ := step_next s
  have hask : AskEffect w.addr w.dest s t := askInput_effect (step_of_waiting hr hw ▸ ht)
  refine ⟨fun hq => ?_, fun hq => ⟨t, ht, hask.waiting_none hq⟩, hostOp_of_waiting hne,
    applyEvent_load_of_waiting hne, disassemblerPort_of_waiting hne⟩
  rw [ht, hask.eq_waitAt hq, waitAt_of_waiting hw]

/-! ### Words stored from an address on (R66, R114) -/

/-- Storing words changes memory alone. -/
theorem setCells_eq (ws : List Word16) : ∀ (s : State) (x : Word15),
    s.setCells x ws = { s with mem := (s.setCells x ws).mem } := by
  induction ws with
  | nil => exact fun _ _ => rfl
  | cons w ws ih => exact fun s x => ih (s.setCell x w) (x + 1)

@[simp] theorem setCells_ip (s : State) (x : Word15) (ws : List Word16) : (s.setCells x ws).ip = s.ip := by
  rw [setCells_eq]
@[simp] theorem setCells_runState (s : State) (x : Word15) (ws : List Word16) :
    (s.setCells x ws).runState = s.runState := by
  rw [setCells_eq]
@[simp] theorem setCells_waiting (s : State) (x : Word15) (ws : List Word16) :
    (s.setCells x ws).waiting = s.waiting := by
  rw [setCells_eq]

/-- Going on by one address and then by `k` is going on by `k + 1`, with the same wrap. -/
theorem add_one_add_ofNat (x : Word15) (k : Nat) :
    x + 1 + BitVec.ofNat 15 k = x + BitVec.ofNat 15 (k + 1) := by
  rw [BitVec.ofNat_add, BitVec.add_comm (BitVec.ofNat 15 k), ← BitVec.add_assoc]
  rfl

/-- Fewer than 32768 addresses on, the address is another one. -/
theorem ne_add_ofNat (x : Word15) {k : Nat} (h0 : 0 < k) (hk : k < 32768) : x ≠ x + BitVec.ofNat 15 k := by
  intro h
  have h := congrArg BitVec.toNat h
  have := x.isLt
  simp only [BitVec.toNat_add, BitVec.toNat_ofNat] at h
  omega

/-- A cell at which none of the words is stored is kept. -/
theorem cell_setCells_of_ne (ws : List Word16) : ∀ (s : State) (x y : Word15),
    (∀ k < ws.length, y ≠ x + BitVec.ofNat 15 k) → (s.setCells x ws).cell y = s.cell y := by
  induction ws with
  | nil => exact fun _ _ _ _ => rfl
  | cons w ws ih =>
    intro s x y h
    have hne : y ≠ x := by simpa using h 0 (by simp)
    have htail : ∀ k < ws.length, y ≠ x + 1 + BitVec.ofNat 15 k := fun k hk => by
      rw [add_one_add_ofNat]
      exact h (k + 1) (by simpa using hk)
    rw [State.setCells, ih _ _ _ htail, cell_setCell, if_neg hne]

/-- Words that do not reach round memory to their own start are read back in order. -/
theorem cell_setCells (ws : List Word16) : ∀ (s : State) (x : Word15) (k : Nat) (hk : k < ws.length),
    ws.length ≤ 32768 → (s.setCells x ws).cell (x + BitVec.ofNat 15 k) = ws[k] := by
  induction ws with
  | nil => exact fun _ _ k hk => absurd hk (Nat.not_lt_zero k)
  | cons w ws ih =>
    intro s x k hk hlen
    rw [List.length_cons] at hk hlen
    cases k with
    | zero =>
      have hne : ∀ j < ws.length, x ≠ x + 1 + BitVec.ofNat 15 j := fun j hj => by
        rw [add_one_add_ofNat]
        exact ne_add_ofNat x (Nat.succ_pos j) (by omega)
      have hx : x + BitVec.ofNat 15 0 = x := BitVec.add_zero x
      rw [State.setCells, hx, cell_setCells_of_ne ws _ _ _ hne, cell_setCell, if_pos rfl,
        List.getElem_cons_zero]
    | succ k =>
      rw [State.setCells, ← add_one_add_ofNat, ih _ _ _ (by omega) (by omega),
        List.getElem_cons_succ]

/-- With the words of an instruction stored at `ip`, a running machine stands at that instruction. -/
theorem atInstruction_setCells {s : State} (hr : s.runState = .running) (hw : s.waiting = none) (i : Instr) :
    AtInstruction (s.setCells s.ip (encode i)) i := by
  have hlen := length_encode_le i
  refine ⟨by simpa using hr, by simpa using hw, fun k hk => ?_⟩
  rw [setCells_ip, cell_setCells _ _ _ _ hk (by omega), List.getElem?_eq_getElem hk]

/-- Settles O11: the step runs the instruction at which the machine stands. -/
theorem writtenInstructionIsFetched : Obligations.WrittenInstructionIsFetched :=
  fun _ i hr hw => (atInstruction_setCells hr hw i).step_eq

/-! ### The frame of memory (R52, R54) -/

/-- Settles O36: of the effects only a store through a literal destination and WMEM's write reach a cell. -/
theorem otherCellsAreKept : Obligations.OtherCellsAreKept := by
  intro i s t x he hdest hwmem
  cases exec_effect he with
  | raised u e hp | storedReg u d r v hp | jumped u w y hp => exact hp.cell x
  | storedCell u d y v hp hd hy =>
    have hne : x ≠ y := fun h => hdest d hd (h ▸ hy)
    rw [cell_setCell, if_neg hne, hp.cell]
  | wroteCell a b y v hi hy =>
    have hne : x ≠ y := (hwmem a b y hi hy).symm
    rw [cell_setCell, if_neg hne, cell_advance]
  | sentinel | pushed | quiet | returned | halted | emitted | waited => rfl

/-! ### The memory primitives (R53, R54) -/

/-- A word in the range of addresses is that address, widened. -/
theorem eq_widen_of_toNat_eq {a : Word16} {x : Word15} (h : a.toNat = x.toNat) : a = widen x :=
  BitVec.eq_of_toNat_eq (h.trans (widen_toNat x).symm)

/-- A read outside memory raises (R53). -/
theorem memRead_of_outside {a : Word16} (h : 32768 ≤ a.toNat) (s : State) :
    memRead a s = .error { cause := .invalidOperand, word := a } s :=
  if_neg (Nat.not_lt.2 h)

/-- A write outside memory raises, and writes nothing (R54). -/
theorem memWrite_of_outside {a : Word16} (h : 32768 ≤ a.toNat) (v : Word16) (s : State) :
    memWrite a v s = .error { cause := .invalidOperand, word := a } s :=
  if_neg (Nat.not_lt.2 h)

/-- Settles O14: inside memory the primitives are a cell's read and write, outside they raise. -/
theorem memoryPrimitives : Obligations.MemoryPrimitives := by
  intro a v s
  refine ⟨fun x hx => ?_, fun h => ⟨memRead_of_outside h s, memWrite_of_outside h v s⟩⟩
  rw [eq_widen_of_toNat_eq hx]
  exact ⟨memRead_widen x s, s.setCell x v, memWrite_widen x v s, rfl, by simp, fun y hy => by simp [hy]⟩

end Sys2Proof.Machine
end

section
/-! PROOFS. The statements of the family `30_encoding.md`: what the decoder accepts and what it rejects,
operand resolution, and the raises of an instruction whose operand words are all defined. -/

namespace Sys2Proof

/-! ### The two readings of an opcode word agree (R81, R87, R89) -/

/-- The table has no row for a word above 21, and a row for every other. -/
theorem rowOf_eq_none_iff (op : Word16) : rowOf op = none ↔ 22 ≤ op.toNat := by
  have hdefined : ∀ row ∈ instructionTable, row.opcode < 22 := by decide
  refine ⟨rowOf_none, fun h => ?_⟩
  rw [rowOf, List.find?_eq_none]
  intro row hrow
  have hlt := hdefined row hrow
  simp only [beq_iff_eq]
  omega

/-- A word from 0 to 21 makes the decoder give an instruction. -/
theorem decodeWith_of_defined {word : Nat → Word16} (h : (word 0).toNat ≤ 21) :
    ∃ i, decodeWith word = some i := by
  unfold decodeWith
  interval_cases (word 0).toNat <;> exact ⟨_, rfl⟩

/-! ### The decoder on a list of words -/

/-- An opcode word above 21 is rejected by name, whatever words follow (R89). -/
theorem decode_of_undefined {op : Word16} (h : 22 ≤ op.toNat) (ws : List Word16) :
    decode (op :: ws) = .error (.undefinedOpcode op) := by
  simp only [decode, (rowOf_eq_none_iff op).2 h]

/-- What an accepted list of words says: its first word selects a row, whose arity it is long enough for, its
words decode to the instruction, and the words past the arity are left. -/
theorem decode_ok {ws rest : List Word16} {i : Instr} (h : decode ws = .ok (i, rest)) :
    ∃ op tail row, ws = op :: tail ∧ rowOf op = some row ∧
      decodeWith (fun k => ws.getD k 0) = some i ∧ row.arity ≤ ws.length ∧ rest = ws.drop row.arity := by
  cases ws with
  | nil => cases h
  | cons op tail =>
    simp only [decode] at h
    split at h
    · next row j hrow hj =>
      split at h
      · cases h
      · next hlen =>
        cases h
        exact ⟨op, tail, row, rfl, hrow, hj, Nat.not_lt.1 hlen, rfl⟩
    · cases h

/-- The encoding of a decoded instruction is the words it was read from, in order (R80). -/
theorem encode_of_decodeWith {word : Nat → Word16} {i : Instr} (h : decodeWith word = some i) :
    encode i = (List.range (encode i).length).map word := by
  obtain ⟨hop, hargs⟩ := decodeWith_some h
  have hword : BitVec.ofNat 16 i.opcode = word 0 := by rw [hop, BitVec.ofNat_toNat, BitVec.setWidth_eq]
  rw [length_encode, Instr.length, List.range_succ_eq_map, List.map_cons, List.map_map, encode, hword]
  exact congrArg (word 0 :: ·) hargs

/-- The first `n` words of a list that has them, read by position. -/
theorem map_getD_range {ws : List Word16} {n : Nat} (h : n ≤ ws.length) :
    (List.range n).map (fun k => ws.getD k 0) = ws.take n := by
  refine List.ext_getElem (by simp [h]) fun k hk _ => ?_
  have hlt : k < ws.length := Nat.lt_of_lt_of_le (by simpa using hk) h
  simp [hlt]

/-- The row of a decoded instruction's opcode word has the encoding's length as its arity (R88). -/
theorem arity_of_decodeWith {word : Nat → Word16} {row : TableRow} {i : Instr}
    (hrow : rowOf (word 0) = some row) (hi : decodeWith word = some i) :
    row.arity = (encode i).length := by
  obtain ⟨row', hrow', -, harity, -, -⟩ := Laws.TableRow.of_instr i
  have hword : (encode i).getD 0 0 = word 0 := by
    rw [encode_of_decodeWith hi, length_encode, Instr.length, List.range_succ_eq_map]
    rfl
  rw [hword, hrow] at hrow'
  cases hrow'
  exact harity

end Sys2Proof

namespace Sys2Proof.Machine

/-- Settles O3: the encoding is the words the decoder took, and it leaves the words after them. -/
theorem decodeAcceptsOnlyEncodings : Obligations.DecodeAcceptsOnlyEncodings := by
  intro ws rest i h
  obtain ⟨op, tail, row, hws, hrow, hi, hlen, hrest⟩ := decode_ok h
  have harity : row.arity = (encode i).length := arity_of_decodeWith (hws ▸ hrow) hi
  have htaken : encode i = ws.take row.arity := by
    rw [harity] at hlen ⊢
    exact (encode_of_decodeWith hi).trans (map_getD_range hlen)
  rw [htaken, hrest, List.take_append_drop]

/-- Settles O44: the only effect that writes `CAUSE` is a raise, and INVALID_OPERAND is raised at an invalid
operand word alone. -/
theorem wellFormedNeverRaisesInvalidOperand : Obligations.WellFormedNeverRaisesInvalidOperand := by
  intro i s t hwf hs he
  cases exec_effect he with
  | raised u e _ _ hinvalid => exact fun hc => by simp [hinvalid hc] at hwf
  | storedCell u d x v hp | storedReg u d r v hp | jumped u w x hp =>
    obtain ⟨-, hcause, -, -⟩ := hp.status
    exact hcause ▸ hs
  | wroteCell | sentinel | pushed | quiet | returned | halted | emitted | waited => exact hs

/-- Settles O1: the words of each line are the encoding of its instruction, and 22 is above the opcodes. -/
theorem writtenOutWordsDecode : Obligations.WrittenOutWordsDecode :=
  ⟨decode_encode_append .hlt [], decode_encode_append (.set 32768 5) [],
    decode_encode_append (.push 32769) [], decode_encode_append (.add 32769 32768 48) [],
    decode_encode_append (.call 12) [], decode_encode_append (.inp 32768) [],
    decode_of_undefined (by decide) []⟩

/-- Settles O4: a word of at most 21 selects a row, whose arity four words cover, and an instruction of that
opcode. -/
theorem opcodeWordSelectsOrIsUndefined : Obligations.OpcodeWordSelectsOrIsUndefined := by
  intro op a b c
  refine ⟨fun h => ?_, fun h => decode_of_undefined h [a, b, c]⟩
  obtain ⟨row, hrow⟩ := Option.ne_none_iff_exists'.1 (mt (rowOf_eq_none_iff op).1 (by omega))
  obtain ⟨i, hi⟩ := decodeWith_of_defined (word := fun k => [op, a, b, c].getD k 0) h
  have hfits : row.arity ≤ [op, a, b, c].length := (arity_bound (rowOf_some hrow).2).2
  exact ⟨i, _, decode_of_row hrow hi hfits, (decodeWith_some hi).1⟩

/-- Settles O12: the three classes of R82, each with what `src` and `dst` do on it. -/
theorem operandResolution : Obligations.OperandResolution := by
  intro w s
  refine ⟨fun h => ?_, fun i h => ⟨src_of_denotes (.inr ⟨i, h, rfl⟩), dst_of_register h s⟩,
    fun h => ⟨src_of_invalid h s, dst_of_invalid h s⟩⟩
  have hx : (w.setWidth 15).toNat = w.toNat := by
    rw [BitVec.toNat_setWidth]
    omega
  exact ⟨w.setWidth 15, hx, src_of_denotes (.inl ⟨h, hx⟩), dst_of_literal hx.symm s⟩

end Sys2Proof.Machine
end

section
/-! PROOFS. The statements of the family `40_pipeline.md`: what one step runs, what it can change at most, how
it ends in Error or Halted, the end of a waiting IN, and the write-back. -/

namespace Sys2Proof

/-- Opcodes end at 21 (R87). -/
theorem Instr.opcode_le (i : Instr) : i.opcode ≤ 21 := by
  cases i <;> simp [Instr.opcode]

/-- A word above 21 makes the decoder give no instruction (R89). -/
theorem decodeWith_of_undefined {word : Nat → Word16} (h : 22 ≤ (word 0).toNat) :
    decodeWith word = none := by
  refine Option.eq_none_iff_forall_ne_some.2 fun i hi => ?_
  have hop := (decodeWith_some hi).1
  have hle := i.opcode_le
  omega

end Sys2Proof

namespace Sys2Proof.Machine

/-! ### Fetch and dispatch (R112 to R116) -/

/-- The opcode word is the cell at `ip` (R112). -/
@[simp] theorem fetchWord_zero (s : State) : s.fetchWord 0 = s.cell s.ip :=
  congrArg s.cell (BitVec.add_zero s.ip)

/-- The cell at `ip` is the opcode of the instruction fetched there. -/
theorem opcode_of_fetchInstr {s : State} {i : Instr} (h : s.fetchInstr = some i) :
    (s.cell s.ip).toNat = i.opcode := by
  rw [(decodeWith_some h).1, fetchWord_zero]

/-- With an undefined opcode at `ip` nothing is fetched (R113). -/
theorem fetchInstr_of_undefined {s : State} (h : 22 ≤ (s.cell s.ip).toNat) : s.fetchInstr = none :=
  decodeWith_of_undefined (by rwa [fetchWord_zero])

/-- Raising UNDEFINED_OPCODE is the four settings of R119, and `ip` stays (R113). -/
theorem raiseUndefinedOpcode_eq (s : State) :
    raiseUndefinedOpcode s = errorState s.ip .undefinedOpcode (s.cell s.ip) s := by
  rw [raiseUndefinedOpcode, enterError_eq, fetchWord_zero]

/-- Settles O5: the decoder reads the instruction back, and the step dispatches it. -/
theorem stepRunsTheDecodedInstruction : Obligations.StepRunsTheDecodedInstruction :=
  fun _ _ h => h.step_eq

/-- Settles O6: nothing is fetched, so the step raises and the trace has no record. -/
theorem undefinedOpcodeRaises : Obligations.UndefinedOpcodeRaises := by
  intro s hr hw hop
  have hf : s.fetchInstr = none := fetchInstr_of_undefined hop
  constructor
  · simp only [step, hr, hw, hf, raiseUndefinedOpcode_eq]
  · simp only [State.trace, hr, hw, hf, Option.map_none]

/-- A run goes on from the state that its first step answers. -/
theorem run_succ_of_next {M : Host.Core} {s t : M.State} (h : M.step s = .next t) (k : Nat) :
    M.run (k + 1) s = M.run k t := by
  simp only [Host.Core.run, h]

/-- Settles O7, by induction on the number of steps. -/
theorem terminalStepsChangeNothing : Obligations.TerminalStepsChangeNothing := by
  intro s k hterm
  induction k with
  | zero => rfl
  | succ k ih =>
    have hstep : core.step s = .next s := step_of_terminal hterm
    exact (run_succ_of_next hstep k).trans ih

/-! ### The write-back (R118) -/

/-- A cell takes every value. -/
theorem store_mem (x : Word15) (v : Word16) (s : State) : store (.mem x) v s = .ok () (s.setCell x v) := rfl

/-- A register takes the low 15 bits, of a narrow value or under mask15. -/
theorem store_reg {v : Word16} {s : State} (h : v.toNat ≤ 32767 ∨ s.params.wideStore = .mask15)
    (i : Fin 8) : store (.reg i) v s = .ok () (s.setReg i (v.setWidth 15)) := by
  by_cases hv : v.toNat < 32768
  · simp only [store, if_pos hv]
  · simp only [store, if_neg hv, h.resolve_left (by omega)]

/-- Under fault a register takes no wide value. -/
theorem store_reg_of_wide {v : Word16} {s : State} (hv : 32767 < v.toNat) (hf : s.params.wideStore = .fault)
    (i : Fin 8) : store (.reg i) v s = .error { cause := .wideValue, word := v } s := by
  simp only [store, if_neg (show ¬ v.toNat < 32768 by omega), hf]

/-- Settles O13: `store` is one cell write, one register write, or a raise. -/
theorem storeWritesOneSlot : Obligations.StoreWritesOneSlot := by
  intro v s
  refine ⟨fun x => ?_, fun i h => ?_, fun i hv hf => store_reg_of_wide hv hf i⟩
  · exact ⟨s.setCell x v, store_mem x v s, rfl, by simp, fun y hy => by simp [hy]⟩
  · exact ⟨s.setReg i (v.setWidth 15), store_reg h i, rfl, by simp [BitVec.toNat_setWidth],
      fun j hj => by simp [hj.symm]⟩

/-! ### A waiting IN goes on (R124, R226, R284) -/

/-- Asking the input port does not depend on a wait in progress, and ends or replaces it. -/
theorem askInput_waitAt (p p' : Word15) (a a' : Word16) (s : State) :
    askInput p a (s.waitAt p' a') = askInput p a s := by
  simp only [askInput, waitAt_input]
  cases s.input.take <;> rfl

/-- A step of a running machine that waits asks the port as if it had not waited. -/
theorem step_waitAt {s : State} (hr : s.runState = .running) (p : Word15) (a : Word16) :
    step (s.waitAt p a) = askInput p a s :=
  (step_of_waiting (s := s.waitAt p a) hr rfl).trans (askInput_waitAt p p a a s)

/-- With no answer from the port, IN advances and waits. -/
theorem exec_inp_of_noAnswer {s : State} (hq : s.input.take = .noAnswer) (a : Word16) :
    exec (.inp a) s = .next ((s.advance 2).waitAt s.ip a) := by
  simp only [exec, execIn, askInput, advance_input, hq]

/-- At end of input IN raises INPUT_END with no effect but the advance (R226). -/
theorem exec_inp_of_endOfInput {s : State} (hw : s.waiting = none) (hq : s.input.take = .endOfInput)
    (a : Word16) : RaisesOnly s (.inp a) 2 .inputEnd 0 := by
  have hkept : (s.advance 2).answered s.input = { s with ip := ipAfter s 2 } := by
    rw [advance_eq]
    cases s; cases hw; rfl
  simp only [RaisesOnly, exec, execIn, askInput, advance_input, hq, hkept, enterError_eq]

/-- Settles O34: a wait has made the advance alone, and `askInput` does not look at it. -/
theorem waitingInEndsAsIfAnsweredAtOnce : Obligations.WaitingInEndsAsIfAnsweredAtOnce := by
  intro a s t q hr hw hq he
  rw [exec_inp_of_noAnswer hq] at he
  cases he
  have hresume : step { (s.advance 2).waitAt s.ip a with input := q } = exec (.inp a) { s with input := q } :=
    step_waitAt (s := State.advance { s with input := q } 2) hr s.ip a
  refine ⟨hresume, fun hend => hresume.trans ?_⟩
  exact exec_inp_of_endOfInput (s := { s with input := q }) hw hend a

/-! ### At most one character is taken (R226) -/

/-- `rest` has still to give all that `q` has, or all but its first character. -/
def TakesAtMostOne (q rest : InputPort) : Prop :=
  rest.pending = q.pending ∨ ∃ ch, q.pending = ch :: rest.pending

/-- A taken character was the first one pending. -/
theorem InputPort.pending_of_take {q rest : InputPort} {ch : Word16} (h : q.take = .char ch rest) :
    q.pending = ch :: rest.pending := by
  unfold InputPort.take at h
  split at h
  · next hq => cases h; simp [pending, hq]
  · next hq hl => cases h; simp [pending, hq, hl, newline]
  · next hq hl => cases h; simp [pending, hq, hl, newline]
  · split at h <;> cases h

theorem TakesAtMostOne.of_take {q rest : InputPort} {ch : Word16} (h : q.take = .char ch rest) :
    TakesAtMostOne q rest :=
  .inr ⟨ch, InputPort.pending_of_take h⟩

/-- Before its last effect an instruction has taken at most one character. -/
theorem Pre.takes {i : Instr} {s u : State} (hp : Pre i s u) : TakesAtMostOne s.input u.input := by
  cases hp with
  | took a ch rest hi hq => exact .of_take hq
  | plain | popped | pushed | ended => exact .inl rfl

/-- An instruction takes at most one character. -/
theorem exec_takes {i : Instr} {s t : State} (he : exec i s = .next t) : TakesAtMostOne s.input t.input := by
  cases exec_effect he with
  | raised u e hp | storedCell u d x v hp | storedReg u d r v hp | jumped u w x hp => exact hp.takes
  | sentinel a ch rest hi hq => exact .of_take hq
  | wroteCell | pushed | quiet | returned | halted | emitted | waited => exact .inl rfl

/-- Asking the input port takes at most one character. -/
theorem AskEffect.takes {p : Word15} {a : Word16} {s t : State} (h : AskEffect p a s t) :
    TakesAtMostOne s.input t.input := by
  cases h with
  | raised _ _ _ hq | storedCell _ _ _ hq | storedReg _ _ _ _ hq => exact .of_take hq
  | waited | ended => exact .inl rfl

/-! ### At most one slot is written (R122) -/

/-- Every register and every cell is as before. -/
def SlotsKept (s t : State) : Prop := (∀ i, t.reg i = s.reg i) ∧ ∀ x, t.cell x = s.cell x

/-- At most one register or one cell was written. -/
inductive OneSlot (s : State) : State → Prop where
  | kept {t : State} (h : SlotsKept s t) : OneSlot s t
  | setReg {u : State} (h : SlotsKept s u) (r : Fin 8) (v : Word15) : OneSlot s (u.setReg r v)
  | setCell {u : State} (h : SlotsKept s u) (x : Word15) (v : Word16) : OneSlot s (u.setCell x v)

theorem Pre.slotsKept {i : Instr} {s u : State} (hp : Pre i s u) : SlotsKept s u := ⟨hp.reg, hp.cell⟩

theorem slotsKept_of_eq {s t : State} (hregs : t.regs = s.regs) (hmem : t.mem = s.mem) : SlotsKept s t :=
  ⟨fun i => congrArg (·.get i) hregs, fun x => congrArg (Memory.cell · x) hmem⟩

theorem slotsKept_answered (s : State) (rest : InputPort) : SlotsKept s (s.answered rest) :=
  slotsKept_of_eq rfl rfl

/-- A write on kept slots changes no cell but its own. -/
theorem eq_of_cell_setCell_ne {s u : State} (h : SlotsKept s u) {x y : Word15} {v : Word16}
    (hy : (u.setCell x v).cell y ≠ s.cell y) : y = x := by
  by_contra hne
  rw [cell_setCell, if_neg hne] at hy
  exact hy (h.2 y)

/-- A write on kept slots changes no register but its own. -/
theorem eq_of_reg_setReg_ne {s u : State} (h : SlotsKept s u) {i j : Fin 8} {v : Word15}
    (hj : (u.setReg i v).reg j ≠ s.reg j) : j = i := by
  by_contra hne
  rw [reg_setReg, if_neg (Ne.symm hne)] at hj
  exact hj (h.1 j)

/-- Two changed cells are one. -/
theorem OneSlot.cell_unique {s t : State} (h : OneSlot s t) {x y : Word15} (hx : t.cell x ≠ s.cell x)
    (hy : t.cell y ≠ s.cell y) : x = y := by
  cases h with
  | kept h | setReg h => exact absurd (h.2 x) hx
  | setCell h z v => rw [eq_of_cell_setCell_ne h hx, eq_of_cell_setCell_ne h hy]

/-- Two changed registers are one. -/
theorem OneSlot.reg_unique {s t : State} (h : OneSlot s t) {i j : Fin 8} (hi : t.reg i ≠ s.reg i)
    (hj : t.reg j ≠ s.reg j) : i = j := by
  cases h with
  | kept h | setCell h => exact absurd (h.1 i) hi
  | setReg h r v => rw [eq_of_reg_setReg_ne h hi, eq_of_reg_setReg_ne h hj]

/-- With a changed cell no register changes. -/
theorem OneSlot.reg_kept {s t : State} (h : OneSlot s t) {x : Word15} (hx : t.cell x ≠ s.cell x)
    (i : Fin 8) : t.reg i = s.reg i := by
  cases h with
  | kept h | setCell h => exact h.1 i
  | setReg h => exact absurd (h.2 x) hx

/-- An instruction writes at most one slot. -/
theorem exec_oneSlot {i : Instr} {s t : State} (he : exec i s = .next t) : OneSlot s t := by
  cases exec_effect he with
  | raised u e hp | jumped u w x hp => exact .kept hp.slotsKept
  | storedCell u d x v hp => exact .setCell hp.slotsKept x v
  | storedReg u d r v hp => exact .setReg hp.slotsKept r v
  | wroteCell a b x v => exact .setCell Pre.plain.slotsKept x v
  | sentinel a ch rest hi hq => exact .setReg (Pre.took a ch rest hi hq).slotsKept 7 25734
  | pushed | quiet | returned | halted | emitted | waited => exact .kept (slotsKept_of_eq rfl rfl)

/-- Asking the input port writes at most one slot. -/
theorem AskEffect.oneSlot {p : Word15} {a : Word16} {s t : State} (h : AskEffect p a s t) : OneSlot s t := by
  cases h with
  | storedCell ch rest x => exact .setCell (slotsKept_answered s rest) x ch
  | storedReg ch rest r v => exact .setReg (slotsKept_answered s rest) r v
  | waited | ended | raised => exact .kept (slotsKept_of_eq rfl rfl)

/-! ### The bounds of one step (R122) -/

/-- An instruction emits at most one code. -/
theorem exec_output_cases {i : Instr} {s t : State} (he : exec i s = .next t) :
    t.output = s.output ∨ ∃ v, t.output = s.output ++ [v] := by
  cases exec_effect he with
  | raised u e hp | storedCell u d x v hp | storedReg u d r v hp | jumped u w x hp => exact .inl hp.output
  | emitted a v => exact .inr ⟨v, rfl⟩
  | wroteCell | sentinel | pushed | quiet | returned | halted | waited => exact .inl rfl

/-- An instruction adds or removes at most one stack entry. -/
theorem exec_stack_cases {i : Instr} {s t : State} (he : exec i s = .next t) :
    t.stack = s.stack ∨ (∃ v, t.stack = v :: s.stack) ∨ ∃ v, s.stack = v :: t.stack :=
  (stackChangesOnlyByItsInstructions i s t he).imp_right (Or.imp And.right And.right)

/-- Asking the input port leaves `ip`, the stack and the output. -/
theorem AskEffect.kept {p : Word15} {a : Word16} {s t : State} (h : AskEffect p a s t) :
    t.ip = s.ip ∧ t.stack = s.stack ∧ t.output = s.output := by
  cases h with
  | waited | ended | raised | storedCell | storedReg => exact ⟨rfl, rfl, rfl⟩

/-- What R122 bounds: slots, stack, output and input. -/
structure StepBounds (s t : State) : Prop where
  slots : OneSlot s t
  stack : t.stack = s.stack ∨ (∃ v, t.stack = v :: s.stack) ∨ ∃ v, s.stack = v :: t.stack
  output : t.output = s.output ∨ ∃ v, t.output = s.output ++ [v]
  input : TakesAtMostOne s.input t.input

/-- Every step is within the bounds. -/
theorem step_bounds {s t : State} (h : step s = .next t) : StepBounds s t := by
  cases step_effect h with
  | executed i _ _ _ he =>
    exact ⟨exec_oneSlot he, exec_stack_cases he, exec_output_cases he, exec_takes he⟩
  | resumed w _ _ ha =>
    obtain ⟨-, hstack, hout⟩ := ha.kept
    exact ⟨ha.oneSlot, .inl hstack, .inl hout, ha.takes⟩
  | unchanged _ ht | undefined _ _ _ ht =>
    rw [ht]
    exact ⟨.kept (slotsKept_of_eq rfl rfl), .inl rfl, .inl rfl, .inl rfl⟩

/-- Settles O41: of the bounds of a step, the one on slots says all three things of cells and registers. -/
theorem oneStepWritesAtMostOneSlot : Obligations.OneStepWritesAtMostOneSlot := by
  intro s t h
  obtain ⟨hslots, hstack, hout, hin⟩ := step_bounds h
  exact ⟨fun _ _ => hslots.cell_unique, fun _ _ => hslots.reg_unique, fun _ i hx => hslots.reg_kept hx i,
    hstack, hout, hin⟩

/-! ### The end in Error or Halted (R119, R125, R271, R275) -/

theorem not_terminal_of_running {s : State} (hr : s.runState = .running) : ¬ s.Terminal := by
  simp [State.Terminal, hr]

/-- An instruction of a running machine that ends in Error has raised, and has done no more than what comes
before its last effect. -/
theorem pre_of_exec_error {i : Instr} {s t : State} (hr : s.runState = .running) (he : exec i s = .next t)
    (ht : t.runState = .error) : ∃ u e, Pre i s u ∧ t = enterError s.ip e u := by
  cases exec_effect he with
  | raised u e hp => exact ⟨u, e, hp, rfl⟩
  | storedCell u d x v hp | storedReg u d r v hp | jumped u w x hp =>
    obtain ⟨hstate, -⟩ := hp.status
    cases (hstate.trans hr).symm.trans ht
  | halted => cases ht
  | wroteCell | sentinel | pushed | quiet | returned | emitted | waited => cases hr.symm.trans ht

/-- What a raise leaves of a running machine: kept slots and output, and the effects that R275 lists. -/
structure PartialEffects (s t : State) : Prop where
  slots : SlotsKept s t
  output : t.output = s.output
  ip : t.ip = s.ip ∨ ∃ n, 1 ≤ n ∧ n ≤ 4 ∧ t.ip = ipAfter s n
  stack : t.stack = s.stack ∨ t.stack = ipAfter s 2 :: s.stack ∨ ∃ v, s.stack = v :: t.stack
  input : TakesAtMostOne s.input t.input

/-- An instruction's raise leaves only partial effects. -/
theorem Pre.partialEffects {i : Instr} {s u : State} (hp : Pre i s u) (e : Raise) :
    PartialEffects s (enterError s.ip e u) where
  slots := hp.slotsKept
  output := hp.output
  ip := .inr ⟨i.length, Nat.succ_pos _, length_encode_le i, hp.ip⟩
  stack := by
    rcases hp.stack with h | ⟨a, -, hv⟩ | ⟨a, -, -, hs⟩
    · exact .inl h
    · exact .inr (.inr hv)
    · exact .inr (.inl hs)
  input := hp.takes

/-- A resumed IN that ends in Error leaves only partial effects. -/
theorem AskEffect.partialEffects {p : Word15} {a : Word16} {s t : State} (h : AskEffect p a s t)
    (hr : s.runState = .running) (ht : t.runState = .error) : PartialEffects s t := by
  obtain ⟨hip, hstack, hout⟩ := h.kept
  have htakes := h.takes
  cases h with
  | ended | raised => exact ⟨slotsKept_of_eq rfl rfl, hout, .inl hip, .inl hstack, htakes⟩
  | waited | storedCell | storedReg => cases hr.symm.trans ht

/-- Settles O42: an Error comes from an instruction's raise, an undefined opcode or a resumed IN. -/
theorem errorLeavesOnlyPartialEffects : Obligations.ErrorLeavesOnlyPartialEffects := by
  intro s t hr h ht
  have hpart : PartialEffects s t := by
    cases step_effect h with
    | unchanged hterm => exact absurd hterm (not_terminal_of_running hr)
    | executed i _ _ _ he =>
      obtain ⟨u, e, hp, rfl⟩ := pre_of_exec_error hr he ht
      exact hp.partialEffects e
    | undefined _ _ _ htu =>
      rw [htu]
      exact ⟨slotsKept_of_eq rfl rfl, rfl, .inl rfl, .inl rfl, .inl rfl⟩
    | resumed w _ _ ha => exact ha.partialEffects hr ht
  obtain ⟨⟨hregs, hcells⟩, hout, hip, hstack, hin⟩ := hpart
  exact ⟨hregs, hcells, hout, hip, hstack, hin⟩

/-- An instruction of a running machine that halts is HLT, or RET with an empty stack (R271). -/
theorem exec_halted {i : Instr} {s t : State} (hr : s.runState = .running) (he : exec i s = .next t)
    (ht : t.runState = .halted) : i = .hlt ∨ (i = .ret ∧ s.stack = []) := by
  rcases statusChangesOnlyByErrorOrHalt i s t he with ⟨herr, -, -⟩ | ⟨-, -, -, hsame | ⟨-, hi⟩⟩
  · simp [ht] at herr
  · simp [ht, hr] at hsame
  · exact hi

/-- Asking the input port halts no running machine. -/
theorem AskEffect.not_halted {p : Word15} {a : Word16} {s t : State} (h : AskEffect p a s t)
    (hr : s.runState = .running) : t.runState ≠ .halted := by
  cases h with
  | ended | raised => simp
  | waited | storedCell | storedReg => simp [hr]

/-- Settles O43: only an executed instruction halts, and the word at `ip` is its opcode. -/
theorem haltedOnlyByHltOrEmptyRet : Obligations.HaltedOnlyByHltOrEmptyRet := by
  intro s t hr h ht
  cases step_effect h with
  | unchanged hterm => exact absurd hterm (not_terminal_of_running hr)
  | executed i _ hw hf he =>
    rw [opcode_of_fetchInstr hf]
    rcases exec_halted hr he ht with rfl | ⟨rfl, hstack⟩
    · exact ⟨hw, .inl rfl⟩
    · exact ⟨hw, .inr ⟨rfl, hstack⟩⟩
  | undefined _ _ _ htu => rw [htu] at ht; cases ht
  | resumed w _ _ ha => exact absurd ht (ha.not_halted hr)

end Sys2Proof.Machine
end

section
/-! PROOFS. The statements of the family `41_data_movement.md`: SET, PUSH, POP, RMEM and WMEM. Each follows
its rule part by part: a part that raises ends the instruction, any other is left behind. -/

namespace Sys2Proof.Machine

/-! ### An instruction run part by part (R7, R116, R119) -/

/-- A part that ends in the advance of a state `u` at the same `ip` leaves the rest of the rule to run
from `u`. -/
theorem runInstr_bind_of_ok {α : Type} {n : Nat} {s u : State} {part : Exec α} {r : α}
    {rest : α → Exec Unit} (h : part (s.advance n) = .ok r (u.advance n)) (hip : u.ip = s.ip) :
    runInstr n (part >>= rest) s = runInstr n (rest r) u := by
  simp only [runInstr, Exec.bind_apply, h, hip]

/-- A source operand that has a value is left behind with it (R83). -/
theorem runInstr_src {n : Nat} {s : State} {w : Word16} {x : Word15} {rest : Word15 → Exec Unit}
    (h : Denotes s w x) : runInstr n (src w >>= rest) s = runInstr n (rest x) s :=
  runInstr_bind_of_ok (src_of_denotes ((denotes_advance s n w x).2 h)) rfl

/-- A rule that raises with no effect of its own leaves the advance (R119). -/
theorem runInstr_of_error {n : Nat} {s : State} {rule : Exec Unit} {cause : Cause} {word : Word16}
    (h : rule (s.advance n) = .error { cause := cause, word := word } (s.advance n)) :
    runInstr n rule s = .next (errorState s.ip cause word { s with ip := ipAfter s n }) := by
  rw [runInstr, h, endStep_error, enterError_eq, advance_eq]

/-- A rule whose first source operand is invalid raises at it (R83). -/
theorem runInstr_src_of_invalid {n : Nat} {s : State} {w : Word16} {rest : Word15 → Exec Unit}
    (h : InvalidWord w) : runInstr n (src w >>= rest) s =
      .next (errorState s.ip .invalidOperand w { s with ip := ipAfter s n }) :=
  runInstr_of_error (by rw [Exec.bind_apply, src_of_invalid h])

/-- A rule with only its store left raises at an invalid destination (R84). -/
theorem runInstr_storeTo_of_invalid {n : Nat} {s : State} {a : Word16} (h : InvalidWord a) (v : Word16) :
    runInstr n (storeTo a v) s =
      .next (errorState s.ip .invalidOperand a { s with ip := ipAfter s n }) :=
  runInstr_of_error (storeTo_of_invalid h v _)

/-- A store after updates that keep every slot is a store from the state before them. -/
theorem Stored.of_slotsKept {s u t : State} {a : Word16} {v : Nat} (hst : Stored u t a v)
    (h : SlotsKept s u) : Stored s t a v :=
  { hst with
    regs_kept := fun i hi => (hst.regs_kept i hi).trans (h.1 i)
    cells_kept := fun x hx => (hst.cells_kept x hx).trans (h.2 x) }

/-- A rule with only its store left, of a value the slot can hold, leaves the advance and the store
(R84, R118). -/
theorem runInstr_storeTo {n : Nat} {s : State} {a v : Word16} (ha : ¬ InvalidWord a)
    (hv : a.toNat ≤ 32767 ∨ v.toNat ≤ 32767 ∨ s.params.wideStore = .mask15) :
    ∃ t, runInstr n (storeTo a v) s = .next t ∧
      t = { s with ip := ipAfter s n, regs := t.regs, mem := t.mem } ∧
      Stored s t a (if a.toNat ≤ 32767 then v.toNat else v.toNat % 32768) := by
  obtain ⟨t, ht, heq, hst⟩ := storeTo_stored (s := s.advance n) ha hv
  refine ⟨t, by rw [runInstr, ht, endStep_ok], ?_, hst.of_slotsKept (slotsKept_of_eq rfl rfl)⟩
  rwa [advance_eq] at heq

/-- The same for a value of 15 bits, which every slot holds. -/
theorem runInstr_storeTo_widen {n : Nat} {s : State} {a : Word16} (v : Word15) (ha : ¬ InvalidWord a) :
    ∃ t, runInstr n (storeTo a (widen v)) s = .next t ∧
      t = { s with ip := ipAfter s n, regs := t.regs, mem := t.mem } ∧ Stored s t a v.toNat := by
  have hv : v.toNat < 32768 := v.isLt
  have h := runInstr_storeTo (n := n) (s := s) ha (.inr (.inl (widen_le v)))
  rwa [widen_toNat, Nat.mod_eq_of_lt hv, ite_self] at h

/-- A destination word past the literals that is not invalid names a register (R82). -/
theorem exists_register {a : Word16} (ha : ¬ InvalidWord a) (h : 32768 ≤ a.toNat) :
    ∃ i : Fin 8, a.toNat = 32768 + i.val := by
  rcases operandWord_cases a with ⟨x, hx⟩ | hreg | hinvalid
  · have := x.isLt
    omega
  · exact hreg
  · exact absurd hinvalid ha

/-! ### What is left of each rule once its sources are resolved -/

/-- SET has only its store left (R140). -/
theorem exec_set_of_denotes {s : State} {b : Word16} {v : Word15} (hb : Denotes s b v) (a : Word16) :
    exec (.set a b) s = runInstr 3 (storeTo a (widen v)) s :=
  runInstr_src hb

/-- PUSH has only its push left (R141). -/
theorem exec_push_of_denotes {s : State} {a : Word16} {v : Word15} (ha : Denotes s a v) :
    exec (.push a) s = runInstr 2 (push v) s :=
  runInstr_src ha

/-- POP with an entry to pop has only its store left, on the popped stack (R142). -/
theorem exec_pop_of_cons {s : State} {v : Word15} {rest : List Word15} (hs : s.stack = v :: rest)
    (a : Word16) : exec (.pop a) s = runInstr 2 (storeTo a (widen v)) (s.withStack rest) :=
  runInstr_bind_of_ok (u := s.withStack rest) (popTop_of_cons (s := s.advance 2) hs) rfl

/-- RMEM has only its store left, of the cell at its source (R143). -/
theorem exec_rmem_of_denotes {s : State} {b : Word16} {x : Word15} (hb : Denotes s b x) (a : Word16) :
    exec (.rmem a b) s = runInstr 3 (storeTo a (s.cell x)) s :=
  (runInstr_src hb).trans (runInstr_bind_of_ok (memRead_widen x (s.advance 3)) rfl)

/-- WMEM with its address resolved has its value and its write left (R144). -/
theorem exec_wmem_of_denotes {s : State} {a : Word16} {x : Word15} (ha : Denotes s a x) (b : Word16) :
    exec (.wmem a b) s = runInstr 3 (src b >>= fun v => memWrite (widen x) (widen v)) s :=
  runInstr_src ha

/-! ### The rules -/

/-- Settles O17: the stack is looked at first, and the store runs on what is left of it. -/
theorem popFollowsItsRule : Obligations.PopFollowsItsRule := by
  intro a s
  refine ⟨rfl, fun hs => ?_, fun v rest hs ha => ?_, fun v rest hs ha => ?_⟩
  · refine runInstr_of_error ?_
    rw [Exec.bind_apply, popTop_of_nil (s := s.advance 2) hs]
    rfl
  · rw [exec_pop_of_cons hs]
    exact runInstr_storeTo_of_invalid ha (widen v)
  · rw [exec_pop_of_cons hs]
    obtain ⟨t, ht, heq, hst⟩ := runInstr_storeTo_widen (n := 2) (s := s.withStack rest) v ha
    exact ⟨t, ht, heq, hst.of_slotsKept (slotsKept_of_eq rfl rfl)⟩

/-- Settles O18: only the store of the raw cell is left, and where a register cannot hold it the setting
decides. -/
theorem rmemFollowsItsRule : Obligations.RmemFollowsItsRule := by
  intro a b s
  refine ⟨rfl, runInstr_src_of_invalid, fun x hx ha => ?_, fun x hx ha hv => ?_,
    fun x hx ha hreg hwide => ⟨fun hfault => ?_, fun hmask => ?_⟩⟩
  · exact (exec_rmem_of_denotes hx a).trans (runInstr_storeTo_of_invalid ha _)
  · have hfits : a.toNat ≤ 32767 ∨ (s.cell x).toNat ≤ 32767 ∨ s.params.wideStore = .mask15 :=
      hv.imp_right .inl
    have hvalue : (if a.toNat ≤ 32767 then (s.cell x).toNat else (s.cell x).toNat % 32768) =
        (s.cell x).toNat := by
      split <;> omega
    rw [StoresResult, exec_rmem_of_denotes hx, ← hvalue]
    exact runInstr_storeTo ha hfits
  · obtain ⟨i, hi⟩ := exists_register ha hreg
    exact (exec_rmem_of_denotes hx a).trans (runInstr_of_error (storeTo_of_wide hi hwide hfault))
  · have h := runInstr_storeTo (n := 3) ha (.inr (.inr hmask)) (v := s.cell x)
    rw [if_neg (by omega)] at h
    rwa [StoresResult, exec_rmem_of_denotes hx]

/-- Settles O15: `b` is resolved, then only the store is left. -/
theorem setFollowsItsRule : Obligations.SetFollowsItsRule := by
  intro a b s
  refine ⟨rfl, runInstr_src_of_invalid, fun v hv ha => ?_, fun v hv ha => ?_⟩
  · exact (exec_set_of_denotes hv a).trans (runInstr_storeTo_of_invalid ha _)
  · rw [StoresResult, exec_set_of_denotes hv]
    exact runInstr_storeTo_widen v ha

/-- Settles O16: `a` is resolved, then only the push is left, and it needs room. -/
theorem pushFollowsItsRule : Obligations.PushFollowsItsRule := by
  intro a s
  refine ⟨rfl, runInstr_src_of_invalid, fun v hv hfull => ?_, fun v hv hroom => ?_⟩
  · exact (exec_push_of_denotes hv).trans
      (runInstr_of_error (push_of_full ((stackFull_advance s 2).2 hfull) v))
  · rw [exec_push_of_denotes hv, runInstr, push_of_room (mt (stackFull_advance s 2).1 hroom), advance_eq]
    rfl

/-- Settles O19: both operands are sources, and a resolved address is always in range. -/
theorem wmemFollowsItsRule : Obligations.WmemFollowsItsRule := by
  intro a b s
  refine ⟨rfl, runInstr_src_of_invalid, fun x hx hb => ?_, fun x v hx hv => ?_⟩
  · exact (exec_wmem_of_denotes hx b).trans (runInstr_src_of_invalid hb)
  · refine ⟨(s.advance 3).setCell x (widen v), ?_, ?_, by simp, fun y hy => by simp [hy]⟩
    · rw [exec_wmem_of_denotes hx, runInstr_src hv, runInstr, memWrite_widen, endStep_ok]
    · rw [advance_eq]
      rfl

end Sys2Proof.Machine
end

section
/-! PROOFS. The statements of the family `42_alu.md`: EQ, GT, ADD, MULT, MOD, AND, OR and NOT. Each resolves
its sources and computes; with a result, only its store is left. -/

namespace Sys2Proof.Machine

/-! ### The ALU's results as natural numbers (R160 to R168) -/

/-- The operation has a result on every two inputs, and its value is `f` of theirs. -/
def AluComputes (op : AluOp) (f : Nat → Nat → Nat) : Prop :=
  ∀ x y : Word15, ∃ r, alu op x y = some r ∧ r.toNat = f x.toNat y.toNat

/-- A value below 32768 is what its 15 bits hold (R160). -/
theorem ofNat15_toNat {n : Nat} (h : n < 32768) : (BitVec.ofNat 15 n).toNat = n := by
  rw [BitVec.toNat_ofNat, Nat.mod_eq_of_lt h]

/-- Two inputs are equal exactly when their values are. -/
theorem aluComputes_eq : AluComputes .eq fun x y => if x = y then 1 else 0 := by
  refine fun x y => ⟨_, rfl, ?_⟩
  by_cases h : x = y
  · simp [h]
  · have hne : x.toNat ≠ y.toNat := mt BitVec.eq_of_toNat_eq h
    simp [h, hne]

theorem aluComputes_gt : AluComputes .gt fun x y => if x > y then 1 else 0 :=
  fun _ _ => ⟨_, rfl, apply_ite BitVec.toNat _ _ _⟩

theorem aluComputes_add : AluComputes .add fun x y => (x + y) % 32768 :=
  fun _ _ => ⟨_, rfl, ofNat15_toNat (Nat.mod_lt _ (by decide))⟩

theorem aluComputes_mult : AluComputes .mult fun x y => (x * y) % 32768 :=
  fun _ _ => ⟨_, rfl, ofNat15_toNat (Nat.mod_lt _ (by decide))⟩

theorem aluComputes_and : AluComputes .and fun x y => x &&& y :=
  fun x y => ⟨_, rfl, BitVec.toNat_and x y⟩

theorem aluComputes_or : AluComputes .or fun x y => x ||| y :=
  fun x y => ⟨_, rfl, BitVec.toNat_or x y⟩

/-- The complement of 15 bits is the distance to 32767 (R168). -/
theorem aluComputes_not : AluComputes .not fun x _ => 32767 - x :=
  fun _ _ => ⟨_, rfl, BitVec.toNat_not⟩

/-- MOD of a zero divisor has no result (R165). -/
theorem alu_mod_of_zero {x y : Word15} (hy : y.toNat = 0) : alu .mod x y = none :=
  if_pos hy

/-- MOD of any other divisor is the remainder, which is no larger than the dividend (R165). -/
theorem alu_mod_of_ne_zero (x : Word15) {y : Word15} (hy : y.toNat ≠ 0) :
    ∃ r, alu .mod x y = some r ∧ r.toNat = x.toNat % y.toNat :=
  ⟨_, if_neg hy, ofNat15_toNat (Nat.lt_of_le_of_lt (Nat.mod_le _ _) x.isLt)⟩

/-! ### What is left of an ALU rule (R120) -/

/-- A result of the ALU is left behind. -/
theorem runInstr_aluResult {n : Nat} {s : State} {op : AluOp} {x y r : Word15} {c : Word16}
    {rest : Word15 → Exec Unit} (h : alu op x y = some r) :
    runInstr n (aluResult op x y c >>= rest) s = runInstr n (rest r) s :=
  runInstr_bind_of_ok (aluResult_of_some h c _) rfl

/-- With no result of the ALU the rule raises at the raw divisor word (R165). -/
theorem runInstr_aluResult_of_none {n : Nat} {s : State} {op : AluOp} {x y : Word15} {c : Word16}
    {rest : Word15 → Exec Unit} (h : alu op x y = none) :
    runInstr n (aluResult op x y c >>= rest) s =
      .next (errorState s.ip .divideByZero c { s with ip := ipAfter s n }) :=
  runInstr_of_error (by rw [Exec.bind_apply, aluResult_of_none h])

section
variable {n : Nat} {s : State} {op : AluOp} {a b c : Word16} {x y r : Word15}

/-- The shared rule with a second source operand that is invalid raises at it. -/
theorem runInstr_aluRule_of_invalid_second (hx : Denotes s b x) (hc : InvalidWord c) :
    runInstr n (aluRule op a b c) s =
      .next (errorState s.ip .invalidOperand c { s with ip := ipAfter s n }) :=
  (runInstr_src hx).trans (runInstr_src_of_invalid hc)

/-- The shared rule with both sources resolved and no result raises at the raw divisor word. -/
theorem runInstr_aluRule_of_none (hx : Denotes s b x) (hy : Denotes s c y) (hr : alu op x y = none) :
    runInstr n (aluRule op a b c) s =
      .next (errorState s.ip .divideByZero c { s with ip := ipAfter s n }) :=
  (runInstr_src hx).trans ((runInstr_src hy).trans (runInstr_aluResult_of_none hr))

/-- The shared rule with both sources resolved and a result has only its store left. -/
theorem runInstr_aluRule_of_some (hx : Denotes s b x) (hy : Denotes s c y) (hr : alu op x y = some r) :
    runInstr n (aluRule op a b c) s = runInstr n (storeTo a (widen r)) s :=
  (runInstr_src hx).trans ((runInstr_src hy).trans (runInstr_aluResult hr))

/-- NOT with its source resolved has only its store left (R168). -/
theorem exec_not_of_denotes (hx : Denotes s b x) (hr : alu .not x 0 = some r) :
    exec (.not a b) s = runInstr 3 (storeTo a (widen r)) s :=
  (runInstr_src hx).trans (runInstr_aluResult hr)

/-- An instruction with only its store left raises at an invalid destination. -/
theorem raisesOnly_of_storeTo {i : Instr} (he : exec i s = runInstr n (storeTo a (widen r)) s)
    (ha : InvalidWord a) : RaisesOnly s i n .invalidOperand a :=
  he.trans (runInstr_storeTo_of_invalid ha _)

/-- An instruction with only its store left stores the value through any other destination. -/
theorem storesResult_of_storeTo {i : Instr} {v : Nat} (he : exec i s = runInstr n (storeTo a (widen r)) s)
    (hv : r.toNat = v) (ha : ¬ InvalidWord a) : StoresResult s i n a v := by
  rw [StoresResult, he, ← hv]
  exact runInstr_storeTo_widen r ha

end

/-! ### The rules -/

/-- An instruction of the shared rule, of an operation that always has a result, follows `BinaryRule`. -/
theorem binaryRule_of_aluComputes {mk : Word16 → Word16 → Word16 → Instr} {opcode : Word16} {op : AluOp}
    {f : Nat → Nat → Nat} (hf : AluComputes op f)
    (hencode : ∀ a b c, encode (mk a b c) = [opcode, a, b, c])
    (hexec : ∀ a b c s, exec (mk a b c) s = runInstr 4 (aluRule op a b c) s) : BinaryRule mk opcode f := by
  intro a b c s
  have he := hexec a b c s
  refine ⟨hencode a b c, fun hb => he.trans (runInstr_src_of_invalid hb),
    fun x hx hc => he.trans (runInstr_aluRule_of_invalid_second hx hc), fun x y hx hy ha => ?_,
    fun x y hx hy ha => ?_⟩
  · obtain ⟨r, hr, -⟩ := hf x y
    exact raisesOnly_of_storeTo (he.trans (runInstr_aluRule_of_some hx hy hr)) ha
  · obtain ⟨r, hr, hv⟩ := hf x y
    exact storesResult_of_storeTo (he.trans (runInstr_aluRule_of_some hx hy hr)) hv ha

/-- Settles O20: both run the shared rule, with a comparison that always has a result. -/
theorem compareInstructionsFollowTheirRules : Obligations.CompareInstructionsFollowTheirRules :=
  ⟨binaryRule_of_aluComputes aluComputes_eq (fun _ _ _ => rfl) (fun _ _ _ _ => rfl),
    binaryRule_of_aluComputes aluComputes_gt (fun _ _ _ => rfl) (fun _ _ _ _ => rfl)⟩

/-- Settles O21: all four run the shared rule, with an operation that always has a result. -/
theorem arithmeticAndLogicFollowTheirRules : Obligations.ArithmeticAndLogicFollowTheirRules :=
  ⟨binaryRule_of_aluComputes aluComputes_add (fun _ _ _ => rfl) (fun _ _ _ _ => rfl),
    binaryRule_of_aluComputes aluComputes_mult (fun _ _ _ => rfl) (fun _ _ _ _ => rfl),
    binaryRule_of_aluComputes aluComputes_and (fun _ _ _ => rfl) (fun _ _ _ _ => rfl),
    binaryRule_of_aluComputes aluComputes_or (fun _ _ _ => rfl) (fun _ _ _ _ => rfl)⟩

/-- Settles O22: the shared rule looks at the divisor once both sources are resolved, and at the destination
only after a result. -/
theorem modFollowsItsRule : Obligations.ModFollowsItsRule := by
  intro a b c s
  refine ⟨rfl, runInstr_src_of_invalid, fun x hx hc => runInstr_aluRule_of_invalid_second hx hc,
    fun x y hx hy h0 => runInstr_aluRule_of_none hx hy (alu_mod_of_zero h0), fun x y hx hy h0 ha => ?_,
    fun x y hx hy h0 ha => ?_⟩
  · obtain ⟨r, hr, -⟩ := alu_mod_of_ne_zero x h0
    exact raisesOnly_of_storeTo (runInstr_aluRule_of_some hx hy hr) ha
  · obtain ⟨r, hr, hv⟩ := alu_mod_of_ne_zero x h0
    exact storesResult_of_storeTo (runInstr_aluRule_of_some hx hy hr) hv ha

/-- Settles O23: NOT has one source, and its operation always has a result. -/
theorem notFollowsItsRule : Obligations.NotFollowsItsRule := by
  intro a b s
  refine ⟨rfl, runInstr_src_of_invalid, fun x hx ha => ?_, fun x hx ha => ?_⟩
  · obtain ⟨r, hr, -⟩ := aluComputes_not x 0
    exact raisesOnly_of_storeTo (exec_not_of_denotes hx hr) ha
  · obtain ⟨r, hr, hv⟩ := aluComputes_not x 0
    exact storesResult_of_storeTo (exec_not_of_denotes hx hr) hv ha

end Sys2Proof.Machine
end

section
/-! PROOFS. The statements of the family `43_control.md`: HLT, NOOP, JMP, JT, JF, CALL and RET. A branch is
what is left once its condition is decided, and a target is resolved only where a jump is left. -/

namespace Sys2Proof.Machine

section
variable {n : Nat} {s : State} {a b : Word16} {t x : Word15}

/-! ### The ends of a control rule (R25, R114) -/

/-- A rule with nothing left leaves the advance. -/
theorem runInstr_pure (n : Nat) (s : State) : runInstr n (pure ()) s = .next { s with ip := ipAfter s n } := by
  rw [runInstr, Exec.pure_apply, endStep_ok, advance_eq]

/-- A rule with only its halt left leaves the advance and the status (R190). -/
theorem runInstr_halt (n : Nat) (s : State) :
    runInstr n halt s = .next { s with ip := ipAfter s n, runState := .halted } := by
  rw [runInstr, halt_apply, endStep_ok, advance_eq]
  rfl

/-- A rule with only its jump left leaves the target in `ip`, over the advance (R195). -/
theorem runInstr_jump (n : Nat) (t : Word15) (s : State) : runInstr n (jump t) s = .next { s with ip := t } := by
  rw [runInstr, jump_apply, endStep_ok]
  rfl

/-- A rule with only its target and its jump left goes where the target word denotes (R195). -/
theorem runInstr_jumpTo (ht : Denotes s a t) : runInstr n (src a >>= jump) s = .next { s with ip := t } :=
  (runInstr_src ht).trans (runInstr_jump n t s)

/-! ### What is left of each rule once its condition, or its stack, is known -/

/-- JT on a condition that is not 0 has its target and its jump left (R193). -/
theorem exec_jt_taken (ha : Denotes s a x) (hx : x.toNat ≠ 0) :
    exec (.jt a b) s = runInstr 3 (src b >>= jump) s :=
  (runInstr_src ha).trans (congrArg (runInstr 3 · s) (if_neg hx))

/-- JT on the condition 0 has nothing left (R193). -/
theorem exec_jt_notTaken (ha : Denotes s a x) (hx : x.toNat = 0) :
    exec (.jt a b) s = runInstr 3 (pure ()) s :=
  (runInstr_src ha).trans (congrArg (runInstr 3 · s) (if_pos hx))

/-- JF on the condition 0 has its target and its jump left (R194). -/
theorem exec_jf_taken (ha : Denotes s a x) (hx : x.toNat = 0) :
    exec (.jf a b) s = runInstr 3 (src b >>= jump) s :=
  (runInstr_src ha).trans (congrArg (runInstr 3 · s) (if_pos hx))

/-- JF on a condition that is not 0 has nothing left (R194). -/
theorem exec_jf_notTaken (ha : Denotes s a x) (hx : x.toNat ≠ 0) :
    exec (.jf a b) s = runInstr 3 (pure ()) s :=
  (runInstr_src ha).trans (congrArg (runInstr 3 · s) (if_neg hx))

/-- CALL begins with the push of the return address, which is the advanced `ip` (R196). -/
theorem exec_call_eq_push (a : Word16) (s : State) :
    exec (.call a) s = runInstr 2 (push (ipAfter s 2) >>= fun _ => src a >>= jump) s :=
  runInstr_bind_of_ok (u := s) (by rw [currentIp_apply, advance_ip_eq]) rfl

/-- CALL with room has its target and its jump left, on the stack with the return address (R196). -/
theorem exec_call_of_room (h : ¬ StackFull s) (a : Word16) :
    exec (.call a) s = runInstr 2 (src a >>= jump) (s.withStack (ipAfter s 2 :: s.stack)) :=
  (exec_call_eq_push a s).trans
    (runInstr_bind_of_ok (push_of_room (mt (stackFull_advance s 2).1 h) (ipAfter s 2)) rfl)

/-- CALL with room and a target jumps there over the return address (R196). -/
theorem exec_call_of_denotes (h : ¬ StackFull s) (ht : Denotes s a t) :
    exec (.call a) s = .next { s with ip := t, stack := ipAfter s 2 :: s.stack } :=
  (exec_call_of_room h a).trans (runInstr_jumpTo ht)

/-- RET with an entry to pop jumps there, on the popped stack (R197). -/
theorem exec_ret_of_cons {rest : List Word15} (hs : s.stack = t :: rest) :
    exec .ret s = .next { s with ip := t, stack := rest } :=
  (runInstr_bind_of_ok (u := s.withStack rest) (popTop_of_cons (s := s.advance 1) hs) rfl).trans
    (runInstr_jump 1 t (s.withStack rest))

/-- RET with nothing to pop has its halt left (R197). -/
theorem exec_ret_of_nil (hs : s.stack = []) : exec .ret s = runInstr 1 halt s :=
  runInstr_bind_of_ok (u := s) (popTop_of_nil (s := s.advance 1) hs) rfl

end

/-! ### The rules -/

/-- Settles O25: the condition decides whether a jump is left, and only then is the target resolved. -/
theorem jumpsFollowTheirRules : Obligations.JumpsFollowTheirRules := by
  intro a b s
  refine ⟨⟨rfl, rfl, rfl⟩, fun ha => ?_, fun t ht => runInstr_jumpTo ht, fun x hx hne => ?_,
    fun x hx h0 => ?_⟩
  · exact ⟨runInstr_src_of_invalid ha, runInstr_src_of_invalid ha, runInstr_src_of_invalid ha⟩
  · exact ⟨fun hb => (exec_jt_taken hx hne).trans (runInstr_src_of_invalid hb),
      fun t ht => (exec_jt_taken hx hne).trans (runInstr_jumpTo ht),
      (exec_jf_notTaken hx hne).trans (runInstr_pure 3 s)⟩
  · exact ⟨fun hb => (exec_jf_taken hx h0).trans (runInstr_src_of_invalid hb),
      fun t ht => (exec_jf_taken hx h0).trans (runInstr_jumpTo ht),
      (exec_jt_notTaken hx h0).trans (runInstr_pure 3 s)⟩

/-- Settles O26: the push comes first, so its overflow hides the target and an invalid target finds the
return address on the stack. -/
theorem callFollowsItsRule : Obligations.CallFollowsItsRule := by
  intro a s
  refine ⟨rfl, fun hfull => ?_, fun hroom ha => ?_, fun t hroom ht => exec_call_of_denotes hroom ht⟩
  · refine (exec_call_eq_push a s).trans (runInstr_of_error ?_)
    rw [Exec.bind_apply, push_of_full ((stackFull_advance s 2).2 hfull)]
  · exact (exec_call_of_room hroom a).trans (runInstr_src_of_invalid ha)

/-- Settles O28: the CALL leaves its return address on top of the stack it found, and the RET takes it off
again. -/
theorem retUndoesCall : Obligations.RetUndoesCall :=
  fun _ _ _ hroom ht => ⟨_, exec_call_of_denotes hroom ht, rfl, exec_ret_of_cons rfl⟩

/-- Settles O24: each rule is one end, the halt or nothing. -/
theorem hltAndNoopFollowTheirRules : Obligations.HltAndNoopFollowTheirRules :=
  fun s => ⟨rfl, runInstr_halt 1 s, rfl, runInstr_pure 1 s⟩

/-- Settles O27: the stack decides between the halt and the jump. -/
theorem retFollowsItsRule : Obligations.RetFollowsItsRule :=
  fun s => ⟨rfl, fun hs => (exec_ret_of_nil hs).trans (runInstr_halt 1 s), fun _ _ hs => exec_ret_of_cons hs⟩

end Sys2Proof.Machine
end

section
/-! PROOFS. The statements of the family `44_io.md`: the input port, OUT, IN, their frame, and the pre-loaded
script. An IN that takes a character runs like any other instruction, from the state with that character
taken. -/

namespace Sys2Proof.Machine

/-! ### What the input port answers (R226) -/

/-- A taken character leaves the provider's end of input as it was. -/
theorem InputPort.ended_of_take {q rest : InputPort} {ch : Word16} (h : q.take = .char ch rest) :
    rest.ended = q.ended := by
  unfold InputPort.take at h
  split at h
  · cases h; rfl
  · cases h; rfl
  · cases h; rfl
  · split at h <;> cases h

/-- The port gives a character, or it has none left and `ended` decides. -/
theorem InputPort.take_cases (q : InputPort) :
    (∃ ch rest, q.take = .char ch rest) ∨
      (q.pending = [] ∧ q.take = if q.ended then .endOfInput else .noAnswer) := by
  unfold InputPort.take
  split
  · exact .inl ⟨_, _, rfl⟩
  · exact .inl ⟨_, _, rfl⟩
  · exact .inl ⟨_, _, rfl⟩
  · next hq hl => exact .inr ⟨by simp [pending, hq, hl], rfl⟩

/-- Settles O30: a character shows that something was pending; without one, `ended` tells the two other
answers apart. -/
theorem inputPortDeliversInOrder : Obligations.InputPortDeliversInOrder := by
  intro q
  refine ⟨fun ch rest h => ⟨InputPort.pending_of_take h, InputPort.ended_of_take h⟩, ?_⟩
  rcases q.take_cases with ⟨ch, rest, h⟩ | ⟨hnil, h⟩
  · simp [h, InputPort.pending_of_take h]
  · cases he : q.ended <;> simp [h, hnil, he]

/-! ### OUT (R220, R221) -/

/-- A rule with only its emission left leaves the advance and the code after every earlier one (R221). -/
theorem runInstr_emit (n : Nat) (v : Word15) (s : State) :
    runInstr n (emit v) s = .next { s with ip := ipAfter s n, output := s.output ++ [v] } := by
  rw [runInstr, emit_apply, endStep_ok, advance_eq]
  rfl

/-- Settles O29: `a` is resolved, then only the emission is left. -/
theorem outFollowsItsRule : Obligations.OutFollowsItsRule :=
  fun _ s => ⟨rfl, runInstr_src_of_invalid, fun v hv => (runInstr_src hv).trans (runInstr_emit 2 v s)⟩

/-! ### IN (R222 to R226) -/

/-- Between steps an answer only changes what the provider has left. -/
theorem answered_of_between {s : State} (hw : s.waiting = none) (rest : InputPort) :
    s.answered rest = { s with input := rest } := by
  cases s; cases hw; rfl

section
variable {ch : Word16} {rest : InputPort} {s : State}

/-- IN with a character at the port has its delivery left, the character taken (R222). -/
theorem exec_inp_of_char (hw : s.waiting = none) (hq : s.input.take = .char ch rest) (a : Word16) :
    exec (.inp a) s = runInstr 2 (deliver a ch) { s with input := rest } := by
  rw [← answered_of_between hw]
  simp only [exec, execIn, askInput, advance_input, hq]
  rfl

/-- With an ordinary character at the port IN has only its store left (R222). -/
theorem exec_inp_of_ordinary (hw : s.waiting = none) (hq : s.input.take = .char ch rest)
    (ho : s.params.sentinelEnable = false ∨ ch.toNat ≠ 36) (a : Word16) :
    exec (.inp a) s = runInstr 2 (storeTo a ch) { s with input := rest } := by
  have hne : ¬ (s.params.sentinelEnable = true ∧ ch.toNat = 36) := by
    rintro ⟨he, h36⟩
    simp [he, h36] at ho
  rw [exec_inp_of_char hw hq, runInstr, deliver_eq]
  exact congrArg (endStep s.ip) (if_neg hne)

/-- With the enabled sentinel at the port IN has only its write of register 7 left (R223). -/
theorem exec_inp_of_sentinel (hw : s.waiting = none) (hq : s.input.take = .char ch rest)
    (he : s.params.sentinelEnable = true) (h36 : ch.toNat = 36) (a : Word16) :
    exec (.inp a) s = .next ((State.advance { s with input := rest } 2).setReg 7 25734) := by
  rw [exec_inp_of_char hw hq, runInstr, deliver_eq]
  exact congrArg (endStep s.ip) (if_pos ⟨he, h36⟩)

end

/-- Settles O31: the character is taken before the destination is resolved, so every end of the store finds
it gone. -/
theorem inStoresAnOrdinaryCharacter : Obligations.InStoresAnOrdinaryCharacter := by
  intro a ch rest s hw hq ho
  have he := exec_inp_of_ordinary hw hq ho a
  refine ⟨fun ha => he.trans (runInstr_storeTo_of_invalid ha ch), fun ha hfits => ?_,
    fun ha hreg hwide hfault => ?_⟩
  · obtain ⟨t, ht, heq, hst⟩ := runInstr_storeTo (n := 2) (s := { s with input := rest }) ha hfits
    exact ⟨t, he.trans ht, heq, hst.of_slotsKept (slotsKept_of_eq rfl rfl)⟩
  · obtain ⟨i, hi⟩ := exists_register ha hreg
    exact he.trans (runInstr_of_error (storeTo_of_wide hi hwide hfault))

/-- Settles O32: the sentinel's write is all that is left, and it does not look at the destination word. -/
theorem inSentinelSetsRegisterSeven : Obligations.InSentinelSetsRegisterSeven := by
  intro a ch rest s hw hq hen h36
  refine ⟨_, exec_inp_of_sentinel hw hq hen h36 a, ?_, by simp, fun i hi => ?_⟩
  · rw [advance_eq]
    rfl
  · rw [reg_setReg, if_neg hi.symm]
    rfl

/-- Settles O33: the two answers that give no character. -/
theorem inAtEndOfInputOrWaiting : Obligations.InAtEndOfInputOrWaiting := by
  intro a s hw
  refine ⟨rfl, fun hq => exec_inp_of_endOfInput hw hq a, fun hq => ?_⟩
  rw [exec_inp_of_noAnswer hq, advance_eq]
  rfl

/-! ### The frame of the ports (R221, R226) -/

/-- Settles O40: of the effects only OUT's emission reaches the output, and only IN's answers and its wait
reach the input side. -/
theorem portsChangeOnlyByInAndOut : Obligations.PortsChangeOnlyByInAndOut := by
  intro i s t he
  cases exec_effect he with
  | raised u e hp | storedCell u d x v hp | storedReg u d r v hp | jumped u w x hp =>
    exact ⟨hp.params, fun _ => hp.output, hp.input⟩
  | emitted a v hi => exact ⟨rfl, fun hn => absurd hi (hn a), fun _ => ⟨rfl, rfl⟩⟩
  | sentinel a ch rest hi | waited a hi => exact ⟨rfl, fun _ => rfl, fun hn => absurd hi (hn a)⟩
  | wroteCell | pushed | quiet | returned | halted => exact ⟨rfl, fun _ => rfl, fun _ => ⟨rfl, rfl⟩⟩

/-! ### The pre-loaded script (R226, R305) -/

/-- A word is no carriage return exactly when its code is not 13. -/
theorem bne_carriageReturn (ch : Word16) : (ch != carriageReturn) = decide (ch.toNat ≠ 13) := by
  rw [Bool.eq_iff_iff, bne_iff_ne, decide_eq_true_iff, carriageReturn]
  exact not_congr BitVec.toNat_inj.symm

/-- A provider with nothing to give has, once handed a script, its characters without the carriage returns. -/
theorem pending_preload {s : State} (h : s.input = InputPort.empty) (script : List Word16) :
    (s.preload script).input.pending = script.filter (fun ch => ch.toNat ≠ 13) := by
  simp [State.preload, InputPort.pending, h, InputPort.empty, bne_carriageReturn]

/-- A supplied line comes after all that was pending, with its newline. -/
theorem pending_supplyLine (s : State) (line : List Word16) :
    (s.supplyLine line).input.pending = s.input.pending ++ line ++ [10] := by
  simp [State.supplyLine, InputPort.pending]

/-- Settles O53: a load leaves the provider with nothing to give, so the script is all that is pending. -/
theorem preloadedScriptIsDeliveredFirst : Obligations.PreloadedScriptIsDeliveredFirst := by
  intro ps image patches s script line hload
  obtain ⟨-, -, -, hs⟩ := load_ok hload
  have hscript := pending_preload (show s.input = InputPort.empty by rw [hs]; rfl) script
  exact ⟨rfl, hscript, by rw [pending_supplyLine, hscript]⟩

end Sys2Proof.Machine
end

section
/-! PROOFS. The statements of the family `45_disassembler.md`: the token of an operand word, and the listing's
coverage, length, dependence on the cells, and entries. A pass is an inductive relation from the address it
stands at, so that each statement about a listing is one induction over its ways on, without the fuel. -/

namespace Sys2Proof.Machine

/-! ### Tokens (R244) -/

/-- OUT's row is the one whose operand is a character (R87, R251). -/
theorem charOperand_iff {row : TableRow} (h : row ∈ instructionTable) :
    row.charOperand = true ↔ row.opcode = 19 := by
  have hall : ∀ r ∈ instructionTable, r.charOperand = true ↔ r.opcode = 19 := by decide
  exact hall row h

theorem token_of_char {row : TableRow} (h : row.charOperand = true) (v : Word16) : token row v = .char v :=
  if_pos h

section
variable {row : TableRow} {v : Word16} (hc : ¬ row.charOperand = true)
include hc

theorem token_of_literal (hv : v.toNat < 32768) : token row v = .hex (v.setWidth 15) := by
  rw [token, if_neg hc, if_pos hv]

theorem token_of_register {i : Fin 8} (hv : v.toNat = 32768 + i.val) : token row v = .reg i := by
  rw [token, if_neg hc, if_neg (by omega), if_pos (by omega), hv, Nat.add_sub_cancel_left]
  exact congrArg Token.reg (Fin.ofNat_val_eq_self i)

theorem token_of_invalid (hv : 32776 ≤ v.toNat) : token row v = .invalid v := by
  rw [token, if_neg hc, if_neg (by omega), if_neg (by omega)]

end

/-- Settles O60: OUT's row by its flag, any other by the range of the word. -/
theorem tokenRule : Obligations.TokenRule := by
  intro op v row hrow
  obtain ⟨hop, hmem⟩ := rowOf_some hrow
  have hchar : row.charOperand = true ↔ op.toNat = 19 := hop ▸ charOperand_iff hmem
  refine ⟨fun h => token_of_char (hchar.2 h) v, fun h hv => ?_,
    fun h i hv => token_of_register (hchar.not.2 h) hv, fun h hv => token_of_invalid (hchar.not.2 h) hv⟩
  refine ⟨_, token_of_literal (hchar.not.2 h) (by omega), ?_⟩
  rw [BitVec.toNat_setWidth, Nat.mod_eq_of_lt (by omega)]

theorem Token.isInvalid_iff (t : Token) : t.isInvalid = true ↔ ∃ v, t = .invalid v := by
  cases t <;> simp [Token.isInvalid]

theorem any_isInvalid_iff (toks : List Token) :
    toks.any Token.isInvalid = true ↔ ∃ v, .invalid v ∈ toks := by
  simp only [List.any_eq_true, Token.isInvalid_iff]
  exact ⟨fun ⟨_, ht, v, hv⟩ => ⟨v, hv ▸ ht⟩, fun ⟨v, hv⟩ => ⟨_, hv, v, rfl⟩⟩

/-! ### The pass without its fuel (R242, R243, R250) -/

/-- What a pass from address `p` lists: nothing at the top of memory, an undefined opcode as one data word, an
instruction whose words fit, or the rest of memory as data from an opcode whose words do not. -/
inductive Pass (m : Memory) : Nat → List Entry → Prop where
  | ended : Pass m 32768 []
  | undefined {p : Nat} {rest : List Entry} (hp : p < 32768) (h : rowOf (Memory.cellAt m p) = none)
      (hrest : Pass m (p + 1) rest) : Pass m p (.data (BitVec.ofNat 15 p) (Memory.cellAt m p) :: rest)
  | fits {p : Nat} {row : TableRow} {rest : List Entry} (hp : p < 32768)
      (h : rowOf (Memory.cellAt m p) = some row) (hf : p + row.arity ≤ 32768)
      (hrest : Pass m (p + row.arity) rest) : Pass m p (instrEntry m p row :: rest)
  | cutOff {p : Nat} {row : TableRow} (hp : p < 32768) (h : rowOf (Memory.cellAt m p) = some row)
      (hf : ¬ p + row.arity ≤ 32768) : Pass m p (dataEntries m p (32768 - p))

/-- The arity of a row that a word selects is 1 to 4 (R80). -/
theorem arity_of_rowOf {op : Word16} {row : TableRow} (h : rowOf op = some row) :
    1 ≤ row.arity ∧ row.arity ≤ 4 :=
  arity_bound (rowOf_some h).2

/-- With fuel for every address left the pass runs to its end. -/
theorem pass_passFrom (m : Memory) : ∀ {fuel p : Nat}, p ≤ 32768 → 32768 ≤ p + fuel →
    Pass m p (passFrom m fuel p) := by
  intro fuel
  induction fuel with
  | zero =>
    intro p hp hfuel
    obtain rfl : p = 32768 := by omega
    exact .ended
  | succ fuel ih =>
    intro p hp hfuel
    rcases Nat.lt_or_eq_of_le hp with hlt | rfl
    · cases h : rowOf (Memory.cellAt m p) with
      | none =>
        rw [passFrom_of_undefined hlt h]
        exact .undefined hlt h (ih (by omega) (by omega))
      | some row =>
        by_cases hf : p + row.arity ≤ 32768
        · rw [passFrom_of_fits hlt h hf]
          have harity := arity_of_rowOf h
          exact .fits hlt h hf (ih hf (by omega))
        · rw [passFrom_of_not_fits hlt h hf]
          exact .cutOff hlt h hf
    · rw [passFrom_of_end m _ _ (Nat.le_refl _)]
      exact .ended

theorem pass_disassemble (m : Memory) : Pass m 0 (disassemble m) :=
  pass_passFrom m (by decide) (by decide)

/-! ### Coverage and length (R240, R249) -/

/-- Entries that cover the `n` addresses from `p` on in order, and show their cells. -/
def CoversFrom (m : Memory) (p n : Nat) (es : List Entry) : Prop :=
  es.flatMap Entry.covers = List.range' p n ∧ es.flatMap Entry.shown = cellsFrom m p n

theorem CoversFrom.nil (m : Memory) (p : Nat) : CoversFrom m p 0 [] := ⟨rfl, rfl⟩

/-- An entry at `p` that shows `k` cells, followed by entries that cover what comes after them. -/
theorem CoversFrom.cons {m : Memory} {p k n : Nat} {e : Entry} {rest : List Entry} (hp : p < 32768)
    (haddr : e.addr = BitVec.ofNat 15 p) (hshown : e.shown = cellsFrom m p k)
    (h : CoversFrom m (p + k) n rest) : CoversFrom m p (k + n) (e :: rest) := by
  obtain ⟨hcovers, hcells⟩ := h
  have he : e.covers = List.range' p k := by
    rw [Entry.covers, hshown, length_cellsFrom, haddr, ofNat15_toNat hp, List.range'_eq_map_range]
  constructor
  · rw [List.flatMap_cons, he, hcovers, List.range'_append_1]
  · rw [List.flatMap_cons, hshown, hcells, cellsFrom_eq, cellsFrom_eq, cellsFrom_eq, ← List.map_append,
      List.range'_append_1]

theorem coversFrom_dataEntries (m : Memory) : ∀ {n p : Nat}, p + n ≤ 32768 →
    CoversFrom m p n (dataEntries m p n) := by
  intro n
  induction n with
  | zero => exact fun _ => .nil m _
  | succ n ih =>
    intro p h
    rw [dataEntries, Nat.add_comm n 1]
    exact .cons (by omega) rfl rfl (ih (by omega))

theorem Pass.coversFrom {m : Memory} {p : Nat} {es : List Entry} (h : Pass m p es) :
    CoversFrom m p (32768 - p) es := by
  induction h with
  | ended => exact .nil m _
  | @undefined p rest hp h hrest ih =>
    rw [show 32768 - p = 1 + (32768 - (p + 1)) by omega]
    exact .cons hp rfl rfl ih
  | @fits p row rest hp h hf hrest ih =>
    rw [show 32768 - p = row.arity + (32768 - (p + row.arity)) by omega]
    exact .cons hp rfl rfl ih
  | cutOff hp h hf => exact coversFrom_dataEntries m (by omega)

/-- Settles O55: the pass from 0 covers the 32768 addresses from 0 on. -/
theorem listingCoversMemoryOnce : Obligations.ListingCoversMemoryOnce := by
  intro m
  obtain ⟨hcovers, hshown⟩ := (pass_disassemble m).coversFrom
  rw [cellsFrom_eq] at hshown
  rw [hcovers, hshown, List.range_eq_range']
  exact ⟨rfl, rfl⟩

@[simp] theorem length_dataEntries (m : Memory) (p n : Nat) : (dataEntries m p n).length = n := by
  simp [dataEntries_eq]

/-- A pass from `p` has one entry for each 1 to 4 words left. -/
theorem Pass.length_bounds {m : Memory} {p : Nat} {es : List Entry} (h : Pass m p es) :
    32768 - p ≤ 4 * es.length ∧ es.length ≤ 32768 - p := by
  induction h with
  | ended => decide
  | undefined hp h hrest ih =>
    rw [List.length_cons]
    omega
  | fits hp h hf hrest ih =>
    have harity := arity_of_rowOf h
    rw [List.length_cons]
    omega
  | cutOff hp h hf =>
    rw [length_dataEntries]
    omega

/-- Settles O56: the bounds of a pass from 0. -/
theorem listingLengthBounds : Obligations.ListingLengthBounds := by
  intro m
  have h := (pass_disassemble m).length_bounds
  omega

/-! ### The cells alone (R70, R240) -/

section
variable {m m' : Memory} (h : Memory.cellAt m = Memory.cellAt m')
include h

theorem instrEntry_congr (p : Nat) (row : TableRow) : instrEntry m p row = instrEntry m' p row := by
  simp only [instrEntry, cellsFrom_eq, h]

theorem passFrom_congr (fuel p : Nat) : passFrom m fuel p = passFrom m' fuel p := by
  induction fuel generalizing p with
  | zero => rfl
  | succ fuel ih => simp only [passFrom, h, ih, instrEntry_congr h, dataEntries_eq]

end

/-- Settles O57: every part of the pass reads memory by its cells. -/
theorem listingDependsOnCellsAlone : Obligations.ListingDependsOnCellsAlone :=
  fun _ _ h => passFrom_congr (funext fun p => h (BitVec.ofNat 15 p)) memWords 0

/-! ### Zero-filled memory (R252) -/

/-- The entry of a zero word at `p`. -/
def hltEntry (p : Nat) : Entry := .instr (BitVec.ofNat 15 p) [0] "HLT" [] false

theorem instrEntry_of_zero {m : Memory} {p : Nat} (h : Memory.cellAt m p = 0) :
    instrEntry m p ⟨0, "HLT", 1, false⟩ = hltEntry p := by
  simp [instrEntry, hltEntry, cellsFrom, h]

theorem rowOf_zero : rowOf 0 = some ⟨0, "HLT", 1, false⟩ := rfl

/-- With every cell 0 a pass only ever goes on by one HLT. -/
theorem Pass.eq_hltEntries {m : Memory} (hz : ∀ p, Memory.cellAt m p = 0) {p : Nat} {es : List Entry}
    (h : Pass m p es) : es = (List.range' p (32768 - p)).map hltEntry := by
  induction h with
  | ended => rfl
  | undefined hp h hrest ih =>
    rw [hz, rowOf_zero] at h
    contradiction
  | @fits p row rest hp h hf hrest ih =>
    rw [hz, rowOf_zero] at h
    cases h
    rw [instrEntry_of_zero (hz p), ih, show 32768 - p = 32768 - (p + 1) + 1 by omega, List.range'_succ,
      List.map_cons]
  | cutOff hp h hf =>
    rw [hz, rowOf_zero] at h
    cases h
    exact absurd hp hf

/-- Settles O58: the pass from 0 lists the 32768 words as HLT. -/
theorem zeroMemoryListsAsHlt : Obligations.ZeroMemoryListsAsHlt := by
  intro m hz
  rw [(pass_disassemble m).eq_hltEntries fun p => hz (BitVec.ofNat 15 p), List.range_eq_range']
  rfl

/-! ### The entries (R241 to R245, R250) -/

/-- The entry stands at a defined opcode whose words do not fit below the top of memory (R250). -/
def Entry.CarriesPast (m : Memory) (e : Entry) : Prop :=
  ∃ row, rowOf (Memory.cell m e.addr) = some row ∧ 32768 < e.addr.toNat + row.arity

/-- Why a pass lists an entry after the entries `before`. -/
inductive Listed (m : Memory) (before : List Entry) : Entry → Prop where
  | undefined {p : Nat} (h : rowOf (Memory.cellAt m p) = none) :
      Listed m before (.data (BitVec.ofNat 15 p) (Memory.cellAt m p))
  | rest {p : Nat} {e : Entry} (he : e = .data (BitVec.ofNat 15 p) (Memory.cellAt m p))
      (h : ∃ e' ∈ before ++ [e], e'.CarriesPast m) : Listed m before e
  | fits {p : Nat} {row : TableRow} (hp : p < 32768) (h : rowOf (Memory.cellAt m p) = some row)
      (hf : p + row.arity ≤ 32768) (hb : ∀ e ∈ before, ¬ e.CarriesPast m) :
      Listed m before (instrEntry m p row)

/-- An entry whose opcode does not carry past the top of memory changes nothing for those after it. -/
theorem Listed.cons {m : Memory} {before : List Entry} {e e' : Entry} (h : Listed m before e)
    (he' : ¬ e'.CarriesPast m) : Listed m (e' :: before) e := by
  cases h with
  | undefined h => exact .undefined h
  | rest he h =>
    obtain ⟨d, hd, hpast⟩ := h
    exact .rest he ⟨d, List.mem_cons_of_mem _ hd, hpast⟩
  | fits hp h hf hb => exact .fits hp h hf (List.forall_mem_cons.2 ⟨he', hb⟩)

theorem not_carriesPast_data {m : Memory} {p : Nat} (h : rowOf (Memory.cellAt m p) = none) :
    ¬ Entry.CarriesPast m (.data (BitVec.ofNat 15 p) (Memory.cellAt m p)) := by
  rintro ⟨row, hrow, -⟩
  exact Option.some_ne_none row (hrow.symm.trans h)

theorem not_carriesPast_instrEntry {m : Memory} {p : Nat} {row : TableRow} (hp : p < 32768)
    (h : rowOf (Memory.cellAt m p) = some row) (hf : p + row.arity ≤ 32768) :
    ¬ (instrEntry m p row).CarriesPast m := by
  rintro ⟨row', hrow, hpast⟩
  obtain rfl : row = row' := Option.some.inj (h.symm.trans hrow)
  have haddr : (instrEntry m p row).addr.toNat = p := ofNat15_toNat hp
  omega

/-- The head of a list is among the elements up to any given one. -/
theorem head_mem_of_cons_eq {d e : Entry} {es before after : List Entry} (h : d :: es = before ++ e :: after) :
    d ∈ before ++ [e] := by
  cases before <;> cases h <;> simp

/-- The data entries from an opcode that carries past the top of memory on start with that opcode's. -/
theorem listed_dataEntries {m : Memory} {p n : Nat}
    (hpast : Entry.CarriesPast m (.data (BitVec.ofNat 15 p) (Memory.cellAt m p)))
    {before after : List Entry} {e : Entry} (hes : dataEntries m p n = before ++ e :: after) :
    Listed m before e := by
  have he : e ∈ dataEntries m p n := by simp [hes]
  rw [dataEntries_eq] at he
  obtain ⟨q, -, hq⟩ := List.mem_map.1 he
  cases n with
  | zero => simp [dataEntries] at hes
  | succ n => exact .rest hq.symm ⟨_, head_mem_of_cons_eq hes, hpast⟩

/-- Every entry of a pass is listed for one of these reasons. -/
theorem Pass.listed {m : Memory} {p : Nat} {es : List Entry} (h : Pass m p es) :
    ∀ {before after : List Entry} {e : Entry}, es = before ++ e :: after → Listed m before e := by
  induction h with
  | ended => simp
  | undefined hp h hrest ih =>
    intro before after e hes
    cases before with
    | nil => cases hes; exact .undefined h
    | cons d before =>
      obtain ⟨rfl, hrest⟩ := List.cons.inj hes
      exact (ih hrest).cons (not_carriesPast_data h)
  | fits hp h hf hrest ih =>
    intro before after e hes
    cases before with
    | nil => cases hes; exact .fits hp h hf (by simp)
    | cons d before =>
      obtain ⟨rfl, hrest⟩ := List.cons.inj hes
      exact (ih hrest).cons (not_carriesPast_instrEntry hp h hf)
  | @cutOff p row hp h hf =>
    intro before after e hes
    have hpast : 32768 < (BitVec.ofNat 15 p).toNat + row.arity := by
      rw [ofNat15_toNat hp]
      exact Nat.lt_of_not_le hf
    exact listed_dataEntries ⟨row, h, hpast⟩ hes

/-- Settles O59: a data entry is listed for one of two reasons, an instruction entry for one. -/
theorem listingEntriesAreSound : Obligations.ListingEntriesAreSound := by
  intro m before after e hes
  cases (pass_disassemble m).listed hes with
  | undefined h =>
    refine ⟨?_, by simp⟩
    rintro addr word ⟨⟩
    exact ⟨rfl, .inl (rowOf_none h)⟩
  | rest he h =>
    subst he
    refine ⟨?_, by simp⟩
    rintro addr word ⟨⟩
    exact ⟨rfl, .inr h⟩
  | @fits p row hp h hf hb =>
    refine ⟨by simp [instrEntry], ?_⟩
    rintro addr words mnemonic operands error ⟨⟩
    obtain ⟨n, hn⟩ := Nat.exists_eq_add_of_le' (arity_of_rowOf h).1
    have hlen := length_cellsFrom m p row.arity
    refine ⟨?_, fun d hd r hr => ?_, row, ?_, rfl, hlen, ?_, ?_⟩
    · rw [hlen, ofNat15_toNat hp]
      exact hf
    · exact Nat.le_of_not_lt fun hlt => hb d hd ⟨r, hr, hlt⟩
    · rw [hn]
      exact h
    · rw [hn]
      rfl
    · exact any_isInvalid_iff _

end Sys2Proof.Machine
end

section
/-! PROOFS. The statement of the family `60_exceptions.md`: the load's three rejections (R272, R301, R303). One
equation for each check says what the load is when the checks before it pass. -/

namespace Sys2Proof.Machine

theorem load_of_tooLarge {ps : Params} {image : List Byte} {patches : List Patch} (h : 65536 < image.length) :
    load ps image patches = .error .imageTooLarge :=
  if_pos h

theorem load_of_odd {ps : Params} {image : List Byte} {patches : List Patch} (hs : image.length ≤ 65536)
    (ho : image.length % 2 = 1) : load ps image patches = .error .malformedImage :=
  (if_neg (Nat.not_lt.2 hs)).trans (if_pos ho)

/-- With an image of the right size, the patches alone decide. -/
theorem load_of_evenSize {ps : Params} {image : List Byte} {patches : List Patch} (hs : image.length ≤ 65536)
    (he : image.length % 2 = 0) :
    load ps image patches = if patches.all Patch.inRange then
      .ok (State.loaded ps (applyPatches (fillMemory image) patches)) else .error .patchOutOfRange :=
  (if_neg (Nat.not_lt.2 hs)).trans (if_neg (by omega))

theorem all_inRange_iff (patches : List Patch) :
    patches.all Patch.inRange = true ↔ ∀ p ∈ patches, p.addr < 32768 ∧ p.value < 65536 := by
  simp only [List.all_eq_true, Patch.inRange_iff]

/-- Settles O52: the size is checked first, then the parity, and one patch out of range is enough. -/
theorem loadRejections : Obligations.LoadRejections := by
  intro ps image patches
  refine ⟨load_of_tooLarge, load_of_odd, fun hs he hbad => ?_, fun hs he hgood => ?_⟩
  · obtain ⟨p, hp, hout⟩ := hbad
    have hall : ¬ patches.all Patch.inRange = true := fun h => by
      have := (all_inRange_iff patches).1 h p hp
      omega
    rw [load_of_evenSize hs he, if_neg hall]
  · rw [load_of_evenSize hs he, if_pos ((all_inRange_iff patches).2 hgood)]
    exact ⟨_, rfl⟩

end Sys2Proof.Machine
end

section
/-! PROOFS. The statement of the family `70_reset_and_hazards.md`: what an accepted load leaves in the cells
and in the registers (R302 to R304). The patches run in list order, so the last one that names a cell is split
off: those before it are overwritten there, and those after it do not reach it. -/

namespace Sys2Proof.Machine

/-! ### The cells after the patches (R303) -/

theorem applyPatches_append_cons (m : Memory) (before after : List Patch) (p : Patch) :
    applyPatches m (before ++ p :: after) =
      applyPatches (Memory.setCell (applyPatches m before) (BitVec.ofNat 15 p.addr) (BitVec.ofNat 16 p.value))
        after := by
  simp only [applyPatches, List.foldl_append, List.foldl_cons]

/-- A cell holds the last patch to it. -/
theorem cell_applyPatches_of_last {m : Memory} {before after : List Patch} {p : Patch} {x : Word15}
    (hr : ∀ q ∈ before ++ p :: after, q.inRange = true) (hx : p.addr = x.toNat)
    (hlast : ∀ q ∈ after, q.addr ≠ x.toNat) :
    (Memory.cell (applyPatches m (before ++ p :: after)) x).toNat = p.value := by
  have hvalue : p.value < 65536 := ((Patch.inRange_iff p).1 (hr p (by simp))).2
  have hx' : x = BitVec.ofNat 15 p.addr := by rw [hx, BitVec.ofNat_toNat, BitVec.setWidth_eq]
  rw [applyPatches_append_cons, cell_applyPatches_of_not_named after _ x (fun q hq => hr q (by simp [hq])) hlast,
    Memory.cell_setCell, if_pos hx', BitVec.toNat_ofNat, Nat.mod_eq_of_lt hvalue]

/-! ### The registers after a load (R304) -/

/-- Every register of a freshly built state is 0. -/
theorem reg_loaded (ps : Params) (m : Memory) : ∀ i, (State.loaded ps m).reg i = 0 := by
  intro i
  fin_cases i <;> rfl

/-- Settles O51: the checks of an accepted load put every patch in range, so the patched and the unpatched
cells are read off the patches' run, and the rest is the built state's. -/
theorem loadBuildsTheState : Obligations.LoadBuildsTheState := by
  intro ps image patches s hload
  obtain ⟨-, -, hr, rfl⟩ := load_ok hload
  refine ⟨fun x hx => ?_, ?_, fun p hp => (Patch.inRange_iff p).1 (hr p hp), reg_loaded ps _,
    rfl, rfl, rfl, rfl, rfl, rfl⟩
  · exact (congrArg BitVec.toNat (cell_applyPatches_of_not_named patches _ x hr hx)).trans
      (cell_fillMemory image x)
  · rintro before after p x rfl hx hlast
    exact cell_applyPatches_of_last hr hx hlast

end Sys2Proof.Machine
end
